-- ==== Sys2Proof/Word.lean ====
section
/-! DEFINITION. The words of the HVSP protocol engine and the small fixed sets of names its rules use.
A bit is a `Bool`: `false` is the low level `0`, `true` the high level `1` (R9). -/

namespace Sys2Proof

/-- A byte, `b[7:0]` (R9). -/
abbrev Byte := BitVec 8

/-- A word of the fixed program, format `MW19` (R93). -/
abbrev ProgWord := BitVec 19

/-- The five signal lines (R10). -/
inductive Line where
  | din
  | iin
  | dout
  | sclk
  | hvrst
deriving DecidableEq, Repr

/-- The four lines that have a direction bit (R26); `HVRST` has none. -/
inductive ConfLine where
  | din
  | iin
  | dout
  | sclk
deriving DecidableEq, Repr

/-- A direction, seen from the engine (R26). -/
inductive Direction where
  /-- `IN`: the engine does not drive the line. -/
  | input
  /-- `OUT`: the engine drives its latch onto the line. -/
  | output
deriving DecidableEq, Repr

/-- The two settling delays of entry, by the names of their lengths (R8, R170). -/
inductive Settle where
  | tSettle1
  | tSettle2
deriving DecidableEq, Repr

/-- The three fuse types (R63, R97). -/
inductive Fuse where
  | low
  | high
  | ext
deriving DecidableEq, Repr

end Sys2Proof
end

