-- ==== Sys2Proof/Config.lean ====
section
/-! DEFINITION. What an implementation fixes (R8) and what the spec leaves open.
An `opaque` constant has no body: no proof can use a value of it. -/

namespace Sys2Proof

/-- `FUSE_LOW` (R8). -/
def Config.fuseLow : Byte := 0x62#8

/-- `FUSE_HIGH` (R8). -/
def Config.fuseHigh : Byte := 0xDF#8

/-- `FUSE_EXT` (R8). -/
def Config.fuseExt : Byte := 0xFF#8

/-- The number of words of program space (R60, R61). -/
def Config.progSize : Nat := 18

/-- The level of the data-out line at the `n`-th sample taken (R70, U4, D20): a FREE VALUE, under no law.
Log entry 2. -/
opaque Config.doutLevel (n : Nat) : Bool

/-- `T_SETTLE1` and `T_SETTLE2`, durations greater than zero (R8, U7, D16). Log entry 13. -/
opaque Config.settleLength (t : Settle) : ℕ+

/-- `CYC_PER_STEP`, cycles of `sysclk` a micro-step takes, at least 1 (R8, R12, D3). Log entry 13. -/
opaque Config.cycPerStep : ℕ+

/-- `T_SCLK_HIGH`, width of the high phase of a clock pulse (R8, R120, U8). No rule depends on it. Log entry 13. -/
opaque Config.tSclkHigh : ℕ

/-- `T_SCLK_LOW`, width of the low phase of a clock pulse (R8, R120, U8). No rule depends on it. Log entry 13. -/
opaque Config.tSclkLow : ℕ

/-- `T_POLL`, time between two samples of the poll (R8, R151(h), U8). No rule depends on it. Log entry 13. -/
opaque Config.tPoll : ℕ

end Sys2Proof
end

