-- ==== Sys2Proof/Syntax.lean ====
section
/-! DEFINITION. The instructions of the engine, one constructor per row of the opcode table. -/

namespace Sys2Proof

/-- The thirteen program words (R94) and the four pseudo-instructions (R102). -/
inductive Instr where
  /-- `XFER d, i`: serialize one byte pair (R121). -/
  | xfer (d i : Byte)
  /-- `LDCMD` (R127). -/
  | ldcmd
  /-- `LDDATA v` (R128). -/
  | lddata (v : Byte)
  /-- `SELL` (R129). -/
  | sell
  /-- `SELH` (R130). -/
  | selh
  /-- `SELE` (R131). -/
  | sele
  /-- `WRL` (R132). -/
  | wrl
  /-- `WRH` (R133). -/
  | wrh
  /-- `WRE` (R134). -/
  | wre
  /-- `POLL`: wait until data-out reads high (R150). -/
  | poll
  /-- `ENTER`: the transition idle to programming (R170). -/
  | enter
  /-- `EXIT`: the transition programming to done (R171). -/
  | exit
  /-- `HALT`: the terminal state (R172). -/
  | halt
  /-- `WFUSE.L v`: write the low fuse (R153). -/
  | wfuseL (v : Byte)
  /-- `WFUSE.H v`: write the high fuse (R154). -/
  | wfuseH (v : Byte)
  /-- `WFUSE.E v`: write the extended fuse (R155). -/
  | wfuseE (v : Byte)
  /-- `SESSION`: the whole fixed program (R173). -/
  | session
deriving DecidableEq, Repr

end Sys2Proof
end

