-- ==== Sys2Proof/WellFormed.lean ====
section
/-! DEFINITION. When an instruction stands under the name the decoder gives it (R103). A pair that R96 names has two
spellings, `XFER 0x40, 0x4C` and `LDCMD`; the well-formed one is the named one. -/

namespace Sys2Proof

/-- The named form of an operand pair, looked up in the order R103 gives; `none` where the pair has no name. -/
def Instr.named (d i : Byte) : Option Instr :=
  if d = 0x40#8 ∧ i = 0x4C#8 then some .ldcmd
  else if d = 0x00#8 ∧ i = 0x64#8 then some .sell
  else if d = 0x00#8 ∧ i = 0x74#8 then some .selh
  else if d = 0x00#8 ∧ i = 0x66#8 then some .sele
  else if d = 0x00#8 ∧ i = 0x6C#8 then some .wrl
  else if d = 0x00#8 ∧ i = 0x7C#8 then some .wrh
  else if d = 0x00#8 ∧ i = 0x6E#8 then some .wre
  else if i = 0x2C#8 then some (.lddata d)
  else none

/-- An instruction is well formed when it is not a raw `XFER` of a pair that has a name (R96, R103). Log entry 8. -/
def Instr.wellFormed : Instr → Bool
  | .xfer d i => (Instr.named d i).isNone
  | .ldcmd | .lddata _ | .sell | .selh | .sele | .wrl | .wrh | .wre => true
  | .poll | .enter | .exit | .halt => true
  | .wfuseL _ | .wfuseH _ | .wfuseE _ | .session => true

end Sys2Proof
end

