-- ==== Sys2Proof/Decode.lean ====
section
/-! DEFINITION. Decoding a program word (R103), the expansions of the pseudo-instructions (R102), the encoder written
from the same tables (R93, R94, R96, R97) and the fixed program (R98). -/

namespace Sys2Proof

/-- Why a word is no instruction: the reserved program words of R99(a). -/
inductive Reserved where
  /-- A kind `K` of 5, 6 or 7 (R99(a), U1). -/
  | reservedKind (k : BitVec 3)
  /-- `POLL`, `ENTER`, `EXIT` or `HALT` with operand bits that are not zero (R99(a), U1). -/
  | reservedOperand (k : BitVec 3)
deriving DecidableEq, Repr

/-! ## Fields of `MW19` (R93) -/

/-- `K = MW[18:16]`. -/
def kindOf (w : ProgWord) : BitVec 3 := w.extractLsb' 16 3

/-- `D = MW[15:8]`. -/
def dataOf (w : ProgWord) : Byte := w.extractLsb' 8 8

/-- `I = MW[7:0]`. -/
def instrOf (w : ProgWord) : Byte := w.extractLsb' 0 8

/-- `MW19` from its three fields: `K`, then `D`, then `I` from the most significant end. -/
def packWord (k : BitVec 3) (d i : Byte) : ProgWord := (k ++ d ++ i : BitVec (3 + 8 + 8))

/-! ## One word (R103) -/

/-- A word of kind 1 to 4 stands for `instr` when its operand bits are zero (R103(3)). -/
def decodePlain (w : ProgWord) (instr : Instr) : Except Reserved Instr :=
  if dataOf w = 0#8 ∧ instrOf w = 0#8 then .ok instr else .error (.reservedOperand (kindOf w))

/-- Decoding one program word, total on all 2^19 values (R103). -/
def decodeWord (w : ProgWord) : Except Reserved Instr :=
  if kindOf w = 0#3 then .ok ((Instr.named (dataOf w) (instrOf w)).getD (.xfer (dataOf w) (instrOf w)))
  else if kindOf w = 1#3 then decodePlain w .poll
  else if kindOf w = 2#3 then decodePlain w .enter
  else if kindOf w = 3#3 then decodePlain w .exit
  else if kindOf w = 4#3 then decodePlain w .halt
  else .error (.reservedKind (kindOf w))

/-! ## Encoding (R94, R96, R97, R102) -/

/-- The byte written to a fuse in the fixed program (R8, R97 column `value`). -/
def fuseValue : Fuse → Byte
  | .low => Config.fuseLow
  | .high => Config.fuseHigh
  | .ext => Config.fuseExt

/-- The instruction byte of call 3, which selects the fuse register (R97 column `select`). -/
def fuseSelect : Fuse → Byte
  | .low => 0x64#8
  | .high => 0x74#8
  | .ext => 0x66#8

/-- The instruction byte of call 4, the write strobe (R97 column `strobe`). -/
def fuseStrobe : Fuse → Byte
  | .low => 0x6C#8
  | .high => 0x7C#8
  | .ext => 0x6E#8

/-- The word of `XFER d, i`. -/
def xferWord (d i : Byte) : ProgWord := packWord 0#3 d i

/-- The word of `POLL`. -/
def pollWord : ProgWord := packWord 1#3 0#8 0#8

/-- The word of `ENTER`. -/
def enterWord : ProgWord := packWord 2#3 0#8 0#8

/-- The word of `EXIT`. -/
def exitWord : ProgWord := packWord 3#3 0#8 0#8

/-- The word of `HALT`. -/
def haltWord : ProgWord := packWord 4#3 0#8 0#8

/-- The four operand pairs of a fuse write, calls 1 to 4 (R152). -/
def fuseCalls (f : Fuse) (v : Byte) : List (Byte × Byte) :=
  [(0x40#8, 0x4C#8), (v, 0x2C#8), (0x00#8, fuseSelect f), (0x00#8, fuseStrobe f)]

/-- The five words of a fuse write (R152 to R155). -/
def fuseWords (f : Fuse) (v : Byte) : List ProgWord :=
  (fuseCalls f v).map (fun p => xferWord p.1 p.2) ++ [pollWord]

/-- The eighteen words of `SESSION` (R102, R173). -/
def sessionWords : List ProgWord :=
  [enterWord] ++ fuseWords .low (fuseValue .low) ++ fuseWords .high (fuseValue .high)
    ++ fuseWords .ext (fuseValue .ext) ++ [exitWord, haltWord]

/-- The words of an instruction: one for a row of R94, the expansion of R102 for a pseudo-instruction. -/
def encode : Instr → List ProgWord
  | .xfer d i => [xferWord d i]
  | .ldcmd => [xferWord 0x40#8 0x4C#8]
  | .lddata v => [xferWord v 0x2C#8]
  | .sell => [xferWord 0x00#8 0x64#8]
  | .selh => [xferWord 0x00#8 0x74#8]
  | .sele => [xferWord 0x00#8 0x66#8]
  | .wrl => [xferWord 0x00#8 0x6C#8]
  | .wrh => [xferWord 0x00#8 0x7C#8]
  | .wre => [xferWord 0x00#8 0x6E#8]
  | .poll => [pollWord]
  | .enter => [enterWord]
  | .exit => [exitWord]
  | .halt => [haltWord]
  | .wfuseL v => fuseWords .low v
  | .wfuseH v => fuseWords .high v
  | .wfuseE v => fuseWords .ext v
  | .session => sessionWords

/-! ## A list of words -/

/-- Reading a list of words as one instruction: a single word by R103, five or eighteen words as a pseudo-instruction
of R102 when they are exactly its expansion; `none` for a reserved word and for any other list. -/
def decodeWords : List ProgWord → Option Instr
  | [w] => (decodeWord w).toOption
  | ws =>
    let v := dataOf ((ws[1]?).getD 0#19)
    if ws = fuseWords .low v then some (.wfuseL v)
    else if ws = fuseWords .high v then some (.wfuseH v)
    else if ws = fuseWords .ext v then some (.wfuseE v)
    else if ws = sessionWords then some .session
    else none

/-! ## The fixed program -/

/-- `PROG[0..17]`, the words of the column `MW19` of R98. -/
def fixedProgram : List ProgWord :=
  [0x20000#19, 0x0404C#19, 0x0622C#19, 0x00064#19, 0x0006C#19, 0x10000#19]
    ++ [0x0404C#19, 0x0DF2C#19, 0x00074#19, 0x0007C#19, 0x10000#19]
    ++ [0x0404C#19, 0x0FF2C#19, 0x00066#19, 0x0006E#19, 0x10000#19]
    ++ [0x30000#19, 0x40000#19]

/-! ## The host's reading of a row of the opcode table -/

/-- `n` words of 19 bits cut from the number `w`, the first word at the least significant end. -/
def splitWords : Nat → Nat → List ProgWord
  | 0, _ => []
  | n + 1, w => BitVec.ofNat 19 w :: splitWords n (w / 2 ^ 19)

/-- The words of an instruction whose bits are `w`, in program order. A row of several words may number its first
word at the least significant end or, as the table writes its macro rows, leftmost: the order that decodes is taken.
Log entry 7. -/
def tableWords (nbits w : Nat) : List ProgWord :=
  let ws := splitWords (nbits / 19) w
  if (decodeWords ws).isSome then ws
  else if (decodeWords ws.reverse).isSome then ws.reverse
  else ws

/-- The instruction the decoder reads from a table row's bits; `none` where it refuses, and where a bit above the
row's last word is set. -/
def decodeTableWord (nbits w : Nat) : Option Instr :=
  if w < 2 ^ (19 * (nbits / 19)) then decodeWords (tableWords nbits w) else none

end Sys2Proof
end

