-- ==== Sys2Proof/Machine/State.lean ====
section
/-! DEFINITION. The state of the engine (R20 to R31), the events of its trace (R11) and the reasons a step can stop. -/

namespace Sys2Proof.Machine

/-- `OUT`, the output latch, one bit per line (R25). -/
structure Latch where
  din : Bool
  iin : Bool
  dout : Bool
  sclk : Bool
  hvrst : Bool
deriving DecidableEq, Repr

/-- `DIR`, the direction register, one bit per configurable line (R26). -/
structure DirReg where
  din : Direction
  iin : Direction
  dout : Direction
  sclk : Direction
deriving DecidableEq, Repr

/-- The events of a trace, one per primitive of R11. -/
inductive Event where
  /-- `Drive(L, v)`. -/
  | drive (l : Line) (v : Bool)
  /-- `SetDir(L, d)`. -/
  | setDir (l : ConfLine) (d : Direction)
  /-- `SetDirAll(OUT)`. -/
  | setDirAllOut
  /-- `Sample(DOUT) = b`. -/
  | sample (b : Bool)
  /-- `Delay(T)`. -/
  | delay (t : Settle)
deriving DecidableEq, Repr

/-- The faults of a step. There are none (R190, R203: "Fault: none; no state of the fixed program faults"), so the
type has no constructor. -/
inductive Fault where
deriving DecidableEq, Repr

/-- The refusals of a step (R203). None is met by the fixed program. -/
inductive Refusal where
  /-- An instruction that has no meaning in this model yet; raised by an arm of `exec`, and no arm raises it. Safe. -/
  | notModelled (mnemonic : String)
  /-- The program word has kind 5, 6 or 7 (R99(a), U1: refuse); raised by `step`. Safe. -/
  | reservedKind (k : BitVec 3)
  /-- The program word is `POLL`, `ENTER`, `EXIT` or `HALT` with operand bits that are not zero (R99(a), U1: refuse);
  raised by `step`. Safe. -/
  | reservedOperand (k : BitVec 3)
  /-- There is no program word at `mpc`: program space has 18 words (R60, R61); raised by `step`. Safe. Log entry 10. -/
  | noProgramWord
  /-- The instruction has no micro-step `u` (R22, R23); raised by every meaning but that of `HALT`. Safe. Log entry 11. -/
  | noSuchMicroStep
  /-- A transfer would start with `OUT[SCLK] = 1` (U6: refuse; R203); raised by the transfers and the macros. Safe.
  Log entry 9. -/
  | transferWithClockHigh
  /-- A transfer would start, or a wait would sample, before the directions are those `ENTER` gives the three serial
  lines (R123, R177; R203, D22: a program of another shape is refused); raised by the transfers, `POLL` and the `WFUSE`
  macros. Safe. Log entry 15. -/
  | linesNotConfigured
  /-- Data-out would be sampled while the engine drives it (U3, D24: refuse); raised by `POLL` and the `WFUSE` macros.
  Safe. Log entry 9. -/
  | sampleWhileDriven
deriving DecidableEq, Repr

/-- The state of the engine: the 36 bits of R20, then three fields of the model's own. -/
structure State where
  /-- `DREG`, the data byte of the transfer in progress (R21). -/
  dreg : Byte
  /-- `IREG`, the instruction byte of the transfer in progress (R21). -/
  ireg : Byte
  /-- `mpc`, the index of the current program word (R22). -/
  mpc : BitVec 5
  /-- `u`, the index of the next micro-step of that word (R22). -/
  u : BitVec 6
  /-- `OUT` (R25). -/
  out : Latch
  /-- `DIR` (R26). -/
  dir : DirReg
  /-- The model's own: program space, `PROG` in the hardware (R61, R98). Log entry 1. -/
  prog : List ProgWord
  /-- The model's own: how many samples of data-out have been taken, the index of the next free answer. Log entry 3. -/
  samples : Nat
  /-- The model's own: the event trace of R7, newest event first. No step reads it. Log entry 4. -/
  log : List Event
deriving DecidableEq, Repr

/-- The machine right after power-on reset (R31, R220). -/
def State.reset : State where
  dreg := 0x00#8
  ireg := 0x00#8
  mpc := 0#5
  u := 0#6
  out := { din := false, iin := false, dout := false, sclk := false, hvrst := true }
  dir := { din := .input, iin := .input, dout := .input, sclk := .input }
  prog := fixedProgram
  samples := 0
  log := []

end Sys2Proof.Machine
end

