-- ==== Sys2Proof/Machine/Ops.lean ====
section
/-! DEFINITION. The named operations over the lines, the registers and program space. The primitives are those of R11:
each touches the lines as its row says and appends exactly one event. -/

namespace Sys2Proof.Machine

/-! ## The line space (R25, R26, R62) -/

/-- `OUT[L]`. -/
def Latch.read (o : Latch) : Line → Bool
  | .din => o.din
  | .iin => o.iin
  | .dout => o.dout
  | .sclk => o.sclk
  | .hvrst => o.hvrst

/-- `OUT[L] <- v`. -/
def Latch.write (o : Latch) (l : Line) (v : Bool) : Latch :=
  match l with
  | .din => { o with din := v }
  | .iin => { o with iin := v }
  | .dout => { o with dout := v }
  | .sclk => { o with sclk := v }
  | .hvrst => { o with hvrst := v }

/-- `DIR[L]`. -/
def DirReg.read (r : DirReg) : ConfLine → Direction
  | .din => r.din
  | .iin => r.iin
  | .dout => r.dout
  | .sclk => r.sclk

/-- `DIR[L] <- d`. -/
def DirReg.write (r : DirReg) (l : ConfLine) (d : Direction) : DirReg :=
  match l with
  | .din => { r with din := d }
  | .iin => { r with iin := d }
  | .dout => { r with dout := d }
  | .sclk => { r with sclk := d }

/-- The four directions `OUT` at once (R11, D14). -/
def DirReg.allOut : DirReg := { din := .output, iin := .output, dout := .output, sclk := .output }

/-- The three serial lines are outputs: the condition on the directions under which a transfer starts (R123, R177). -/
def DirReg.serialOut (r : DirReg) : Bool := r.din == .output && r.iin == .output && r.sclk == .output

/-- The directions that `ENTER` leaves (R26, R34(b)). -/
def readyDirs : DirReg := { din := .output, iin := .output, dout := .input, sclk := .output }

/-! ## The primitives (R11) -/

/-- `Drive(L, v)`. -/
def drive (l : Line) (v : Bool) (s : State) : State :=
  { s with out := s.out.write l v, log := .drive l v :: s.log }

/-- `SetDir(L, d)`. -/
def setDir (l : ConfLine) (d : Direction) (s : State) : State :=
  { s with dir := s.dir.write l d, log := .setDir l d :: s.log }

/-- `SetDirAll(OUT)`. -/
def setDirAllOut (s : State) : State :=
  { s with dir := DirReg.allOut, log := .setDirAllOut :: s.log }

/-- The oracle's answer to the next `Sample(DOUT)` (R70): the free value of Config at the next index. Log entry 2. -/
def answer (s : State) : Bool := Config.doutLevel s.samples

/-- `Sample(DOUT)`: the event, and the next index of the oracle. The bit itself is `answer s`; it is not stored (R29). -/
def sample (s : State) : State :=
  { s with samples := s.samples + 1, log := .sample (answer s) :: s.log }

/-- `Delay(T)`: an event and nothing else. -/
def delay (t : Settle) (s : State) : State :=
  { s with log := .delay t :: s.log }

/-! ## The registers and the program counter (R21 to R23) -/

/-- `DREG <- d; IREG <- i`. -/
def loadOperands (d i : Byte) (s : State) : State := { s with dreg := d, ireg := i }

/-- `(mpc, u) <- (mpc, u + 1)`. -/
def nextMicro (s : State) : State := { s with u := s.u + 1 }

/-- `(mpc, u) <- (mpc + 1, 0)`. -/
def nextWord (s : State) : State := { s with mpc := s.mpc + 1, u := 0 }

/-! ## Program space (R60, R61, R77) -/

/-- Program space holds exactly its 18 words. -/
def Program.wf (p : List ProgWord) : Bool := p.length == Config.progSize

/-- The word at an address of program space; `none` outside it. -/
def Program.read (p : List ProgWord) (a : Nat) : Option ProgWord :=
  if a < Config.progSize then p[a]? else none

/-- Words placed at consecutive addresses. No step does this; it stands for building the block with another program. -/
def Program.place (p : List ProgWord) (a : Nat) : List ProgWord → List ProgWord
  | [] => p
  | w :: ws => Program.place (p.set a w) (a + 1) ws

/-- The word the sequencer reads: `PROG[mpc]`. -/
def fetch (s : State) : Option ProgWord := Program.read s.prog s.mpc.toNat

/-- The name under which a step refuses a word that the decoder rejects (R99(a), U1). -/
def refusalOf : Reserved → Refusal
  | .reservedKind k => .reservedKind k
  | .reservedOperand k => .reservedOperand k

/-! ## The launch premise (R177) -/

/-- The lines as `CoreReady` has them, at a first micro-step: where a model that leaves `ENTER` out starts. No step does
this. Log entry 1. -/
def launch (s : State) : State :=
  { s with u := 0, out := { s.out with din := false, iin := false, sclk := false, hvrst := false }, dir := readyDirs }

/-! ## Power-on reset (R220, R233) -/

/-- `por` asserted and released: every piece of the spec's state at its reset value, whatever the engine was doing.
The program is the hardware's own and stays; the trace starts again, since the observation of R7 begins after reset;
the free answers already used are not used again. Log entry 12. -/
def powerOnReset (s : State) : State :=
  { State.reset with prog := s.prog, samples := s.samples }

end Sys2Proof.Machine
end

