-- ==== Sys2Proof/Machine/Operands.lean ====
section
/-! DEFINITION. Operand assembly: the formats `F11`, `PAIR16` and `DESC24` (R91, R92, R97) and the operand pair of each
transfer (R95, R96). -/

namespace Sys2Proof.Machine

/-- `W11(b) = zext_11(b) << 2`: one zero bit above the byte, two below (R91). -/
def w11 (b : Byte) : BitVec 11 := b.zeroExtend 11 <<< 2

/-- The bit of the frame of `b` that slot `slot` (0 to 10) sends: bit `10 - slot` of `W11(b)` (R91). -/
def frameBit (b : Byte) (slot : Nat) : Bool := (w11 b).getLsbD (10 - slot)

/-- `PAIR16 = {D, I}` (R92). -/
def pair16 (d i : Byte) : BitVec 16 := (d ++ i : BitVec (8 + 8))

/-- `DESC24 = {value, select, strobe}` of a fuse type (R97). -/
def desc24 (f : Fuse) : BitVec 24 := (fuseValue f ++ fuseSelect f ++ fuseStrobe f : BitVec (8 + 8 + 8))

/-- The operand pair `(D, I)` of a transfer (R96, R102); `none` for an instruction that is no single transfer. -/
def operandPair : Instr → Option (Byte × Byte)
  | .xfer d i => some (d, i)
  | .ldcmd => some (0x40#8, 0x4C#8)
  | .lddata v => some (v, 0x2C#8)
  | .sell => some (0x00#8, 0x64#8)
  | .selh => some (0x00#8, 0x74#8)
  | .sele => some (0x00#8, 0x66#8)
  | .wrl => some (0x00#8, 0x6C#8)
  | .wrh => some (0x00#8, 0x7C#8)
  | .wre => some (0x00#8, 0x6E#8)
  | .poll | .enter | .exit | .halt => none
  | .wfuseL _ | .wfuseH _ | .wfuseE _ | .session => none

/-- The fuse type and the byte of a fuse write (R153 to R155); `none` for any other instruction. -/
def fuseOperand : Instr → Option (Fuse × Byte)
  | .wfuseL v => some (.low, v)
  | .wfuseH v => some (.high, v)
  | .wfuseE v => some (.ext, v)
  | .xfer _ _ | .ldcmd | .lddata _ | .sell | .selh | .sele | .wrl | .wrh | .wre => none
  | .poll | .enter | .exit | .halt | .session => none

/-- The instructions whose rules rely on a finished entry: the transfers, the wait and the fuse writes (R123, R177). -/
def needsEntry (i : Instr) : Bool := (operandPair i).isSome || i == .poll || (fuseOperand i).isSome

end Sys2Proof.Machine
end

