-- ==== Sys2Proof/Machine/BitTransfer.lean ====
section
/-! DEFINITION. The bit transfer family: `XFER` and its eight named forms (R120 to R136). One call of a meaning is one
micro-step (R12). -/

namespace Sys2Proof.Machine

/-- The line event of phase `phase` of slot `slot` (R122): data, then instruction, then clock high, then clock low. -/
def slotEvent (slot phase : Nat) (s : State) : State :=
  match phase with
  | 0 => drive .din (frameBit s.dreg slot) s
  | 1 => drive .iin (frameBit s.ireg slot) s
  | 2 => drive .sclk true s
  | _ => drive .sclk false s

/-- Micro-step `u` of `XFER d, i`, for `u` up to 41 (R122): the operands are loaded at `u = 0`, slots 0 to 9 have four
phases each, and slot 10 is a bare clock pulse. -/
def transferMicro (d i : Byte) (s : State) : State :=
  if s.u.toNat = 0 then nextMicro (slotEvent 0 0 (loadOperands d i s))
  else if s.u.toNat < 40 then nextMicro (slotEvent (s.u.toNat / 4) (s.u.toNat % 4) s)
  else if s.u.toNat = 40 then nextMicro (drive .sclk true s)
  else nextWord (drive .sclk false s)

/-- One micro-step of a transfer, or its refusal: there are 42 of them (R23), and none starts with the clock high
(U6, R203) or before the three serial lines are outputs (R123, R177, R203). -/
def transfer (d i : Byte) (s : State) : Host.Outcome State Fault Refusal :=
  if 42 ≤ s.u.toNat then .refused .noSuchMicroStep
  else if s.u.toNat = 0 ∧ s.out.sclk = true then .refused .transferWithClockHigh
  else if s.u.toNat = 0 ∧ s.dir.serialOut = false then .refused .linesNotConfigured
  else .next (transferMicro d i s)

/-- `XFER d, i` (R121, R122). -/
def execXfer (d i : Byte) (s : State) : Host.Outcome State Fault Refusal := transfer d i s

/-- `LDCMD` is `XFER 0x40, 0x4C` (R127). -/
def execLdcmd (s : State) : Host.Outcome State Fault Refusal := transfer 0x40#8 0x4C#8 s

/-- `LDDATA v` is `XFER v, 0x2C` (R128). -/
def execLddata (v : Byte) (s : State) : Host.Outcome State Fault Refusal := transfer v 0x2C#8 s

/-- `SELL` is `XFER 0x00, 0x64` (R129). -/
def execSell (s : State) : Host.Outcome State Fault Refusal := transfer 0x00#8 0x64#8 s

/-- `SELH` is `XFER 0x00, 0x74` (R130). -/
def execSelh (s : State) : Host.Outcome State Fault Refusal := transfer 0x00#8 0x74#8 s

/-- `SELE` is `XFER 0x00, 0x66` (R131). -/
def execSele (s : State) : Host.Outcome State Fault Refusal := transfer 0x00#8 0x66#8 s

/-- `WRL` is `XFER 0x00, 0x6C` (R132). -/
def execWrl (s : State) : Host.Outcome State Fault Refusal := transfer 0x00#8 0x6C#8 s

/-- `WRH` is `XFER 0x00, 0x7C` (R133). -/
def execWrh (s : State) : Host.Outcome State Fault Refusal := transfer 0x00#8 0x7C#8 s

/-- `WRE` is `XFER 0x00, 0x6E` (R134). -/
def execWre (s : State) : Host.Outcome State Fault Refusal := transfer 0x00#8 0x6E#8 s

end Sys2Proof.Machine
end

