-- ==== Sys2Proof/Machine/FuseWrite.lean ====
section
/-! DEFINITION. The fuse write family: the acknowledgment poller `POLL` (R150, R151) and the macros `WFUSE.L`,
`WFUSE.H`, `WFUSE.E` (R152 to R156). A macro's meaning is the run of its expansion, from the first micro-step of its
first word to the first sample of its wait. Log entry 6. -/

namespace Sys2Proof.Machine

/-- One sample of the wait: the program counter moves on exactly when the sample is high (R150). -/
def pollMicro (s : State) : State :=
  if answer s then nextWord (sample s) else sample s

/-- `POLL` (R150). It has one micro-step (R22) and needs data-out to be an input (R151(g), U3)
and the serial lines as `ENTER` leaves them (R177; R203: no `POLL` before `ENTER`). -/
def execPoll (s : State) : Host.Outcome State Fault Refusal :=
  if s.u.toNat ≠ 0 then .refused .noSuchMicroStep
  else if s.dir.dout = .output then .refused .sampleWhileDriven
  else if s.dir.serialOut = false then .refused .linesNotConfigured
  else .next (pollMicro s)

/-- A whole transfer, its 42 micro-steps in order (R121, R135). -/
def transferRun (d i : Byte) (s : State) : State := (transferMicro d i)^[42] s

/-- The four transfers of a fuse write, in order (R152, R156). -/
def fuseTransfers (f : Fuse) (v : Byte) (s : State) : State :=
  transferRun 0x00#8 (fuseStrobe f)
    (transferRun 0x00#8 (fuseSelect f) (transferRun v 0x2C#8 (transferRun 0x40#8 0x4C#8 s)))

/-- A fuse write up to and including the first sample of its wait (R152). After a low sample the program counter stands
on the `POLL` word, whose own meaning goes on from there. -/
def fuseWrite (f : Fuse) (v : Byte) (s : State) : Host.Outcome State Fault Refusal :=
  if s.u.toNat ≠ 0 then .refused .noSuchMicroStep
  else if s.out.sclk = true then .refused .transferWithClockHigh
  else if s.dir.dout = .output then .refused .sampleWhileDriven
  else if s.dir.serialOut = false then .refused .linesNotConfigured
  else .next (pollMicro (fuseTransfers f v s))

/-- `WFUSE.L v` (R153). -/
def execWfuseL (v : Byte) (s : State) : Host.Outcome State Fault Refusal := fuseWrite .low v s

/-- `WFUSE.H v` (R154). -/
def execWfuseH (v : Byte) (s : State) : Host.Outcome State Fault Refusal := fuseWrite .high v s

/-- `WFUSE.E v` (R155). -/
def execWfuseE (v : Byte) (s : State) : Host.Outcome State Fault Refusal := fuseWrite .ext v s

end Sys2Proof.Machine
end

