-- ==== Sys2Proof/Machine/Session.lean ====
section
/-! DEFINITION. The session family: `ENTER`, `EXIT`, `HALT` and the macro `SESSION` (R170 to R178). -/

namespace Sys2Proof.Machine

/-- Micro-step `u` of `ENTER`, for `u` up to 8 (R170). -/
def enterMicro (s : State) : State :=
  match s.u.toNat with
  | 0 => nextMicro (setDirAllOut s)
  | 1 => nextMicro (drive .din false s)
  | 2 => nextMicro (drive .iin false s)
  | 3 => nextMicro (drive .dout false s)
  | 4 => nextMicro (drive .hvrst true s)
  | 5 => nextMicro (drive .hvrst false s)
  | 6 => nextMicro (delay .tSettle1 s)
  | 7 => nextMicro (setDir .dout .input s)
  | _ => nextWord (delay .tSettle2 s)

/-- `ENTER` (R170): nine micro-steps (R23). The last one sets `(mpc, u)` to the next word, which in the fixed program is
`(1, 0)`. -/
def execEnter (s : State) : Host.Outcome State Fault Refusal :=
  if 9 ≤ s.u.toNat then .refused .noSuchMicroStep else .next (enterMicro s)

/-- The one micro-step of `EXIT` (R171). -/
def exitMicro (s : State) : State := nextWord (drive .hvrst true s)

/-- `EXIT` (R171). -/
def execExit (s : State) : Host.Outcome State Fault Refusal :=
  if s.u.toNat ≠ 0 then .refused .noSuchMicroStep else .next (exitMicro s)

/-- `HALT` (R172): no micro-step, no event, no change, ever. The final state is written as a step to itself.
Log entry 5. -/
def execHalt (s : State) : Host.Outcome State Fault Refusal := .next s

/-- A whole entry, its nine micro-steps in order. -/
def enterRun (s : State) : State := enterMicro^[9] s

/-- The first sample of a wait, then `k` if it was high; after a low sample the run stands at the wait. -/
def waitThen (k : State → State) (s : State) : State :=
  if answer s then k (pollMicro s) else pollMicro s

/-- The session from the first micro-step of `ENTER` to `HALT`, or to the first low sample (R173). -/
def sessionRun (s : State) : State :=
  waitThen
    (fun a => waitThen
      (fun b => waitThen exitMicro (fuseTransfers .ext (fuseValue .ext) b))
      (fuseTransfers .high (fuseValue .high) a))
    (fuseTransfers .low (fuseValue .low) (enterRun s))

/-- `SESSION` (R173): the run of its expansion, as far as log entry 6 says. `ENTER` does not drive the clock (R170), so
the first transfer needs it low from the start. -/
def execSession (s : State) : Host.Outcome State Fault Refusal :=
  if s.u.toNat ≠ 0 then .refused .noSuchMicroStep
  else if s.out.sclk = true then .refused .transferWithClockHigh
  else .next (sessionRun s)

end Sys2Proof.Machine
end

