-- ==== Sys2Proof/Machine/Dispatch.lean ====
section
/-! DEFINITION. One arm per instruction. -/

namespace Sys2Proof.Machine

/-- The meaning of an instruction: for a row of R94 the micro-step `u` of it, for a pseudo-instruction of R102 the run of
its expansion. -/
def exec (i : Instr) (s : State) : Host.Outcome State Fault Refusal :=
  match i with
  | .xfer d b => Sys2Proof.Machine.execXfer d b s
  | .ldcmd => Sys2Proof.Machine.execLdcmd s
  | .lddata v => Sys2Proof.Machine.execLddata v s
  | .sell => Sys2Proof.Machine.execSell s
  | .selh => Sys2Proof.Machine.execSelh s
  | .sele => Sys2Proof.Machine.execSele s
  | .wrl => Sys2Proof.Machine.execWrl s
  | .wrh => Sys2Proof.Machine.execWrh s
  | .wre => Sys2Proof.Machine.execWre s
  | .poll => Sys2Proof.Machine.execPoll s
  | .enter => Sys2Proof.Machine.execEnter s
  | .exit => Sys2Proof.Machine.execExit s
  | .halt => Sys2Proof.Machine.execHalt s
  | .wfuseL v => Sys2Proof.Machine.execWfuseL v s
  | .wfuseH v => Sys2Proof.Machine.execWfuseH v s
  | .wfuseE v => Sys2Proof.Machine.execWfuseE v s
  | .session => Sys2Proof.Machine.execSession s

end Sys2Proof.Machine
end

