-- ==== Sys2Proof/Machine/Step.lean ====
section
/-! DEFINITION. One step: fetch the program word at `mpc`, decode it, run its micro-step `u`. -/

namespace Sys2Proof.Machine

/-- One micro-step of the engine (R12, R61, R103, R203). -/
def step (s : State) : Host.Outcome State Fault Refusal :=
  match fetch s with
  | none => .refused .noProgramWord
  | some w =>
    match decodeWord w with
    | .error e => .refused (refusalOf e)
    | .ok i => exec i s

/-- Whether the first of some program words is an instruction that relies on a finished entry. -/
def startsAfterEntry (ws : List ProgWord) : Bool :=
  ((ws.head?.bind (fun w => (decodeWord w).toOption)).map needsEntry).getD false

/-- The state with an instruction placed where the next step fetches: its words from `mpc` on, and `u = 0`, since an
instruction begins at its first micro-step; for an instruction that relies on a finished entry, the lines of the launch
premise as well (R177), since the engine refuses it otherwise. Log entry 1. -/
def State.withFetchWord (s : State) (nbits w : Nat) : State :=
  let t := { s with prog := Program.place s.prog s.mpc.toNat (tableWords nbits w), u := 0 }
  if startsAfterEntry (tableWords nbits w) then launch t else t

end Sys2Proof.Machine
end

