-- ==== Sys2Proof/Machine/Flags.lean ====
section
/-! DEFINITION. The engine has no flag register (R29). What stands in its place are functions of the state: `sess` and
`done` (R28, R29), the level view (R27), the packed latch and direction words (R25, R26) and the output ports (R30). -/

namespace Sys2Proof.Machine

/-- The session states (R28). -/
inductive Sess where
  | idle
  | programming
  | done
deriving DecidableEq, Repr

/-- `sess`, a function of `mpc` (R28). Values of `mpc` above 17 occur in no run and count as done. Log entry 10. -/
def sess (s : State) : Sess :=
  if s.mpc.toNat = 0 then .idle else if s.mpc.toNat ≤ 16 then .programming else .done

/-- `done`, `1` exactly when `mpc = 17` (R29, R176). -/
def done (s : State) : Bool := s.mpc == 17#5

/-- The level the engine presents on a line (R27). -/
inductive Pin where
  | level (b : Bool)
  /-- `Z`: not driven by the engine. -/
  | z
deriving DecidableEq, Repr

/-- A level driven only while the direction is `OUT`. -/
def driven (d : Direction) (b : Bool) : Pin :=
  match d with
  | .output => .level b
  | .input => .z

/-- `pin(L)` of a latch and a direction register (R27). -/
def pinOf (o : Latch) (r : DirReg) : Line → Pin
  | .din => driven r.din o.din
  | .iin => driven r.iin o.iin
  | .dout => driven r.dout o.dout
  | .sclk => driven r.sclk o.sclk
  | .hvrst => .level o.hvrst

/-- `pin(L)` in a state (R27). -/
def pin (s : State) (l : Line) : Pin := pinOf s.out s.dir l

/-- The 5-tuple of the level view (R27). -/
structure LevelView where
  din : Pin
  iin : Pin
  dout : Pin
  sclk : Pin
  hvrst : Pin
deriving DecidableEq, Repr

/-- The level view of a latch and a direction register. -/
def levelViewOf (o : Latch) (r : DirReg) : LevelView where
  din := pinOf o r .din
  iin := pinOf o r .iin
  dout := pinOf o r .dout
  sclk := pinOf o r .sclk
  hvrst := pinOf o r .hvrst

/-- The level view of a state. -/
def levelView (s : State) : LevelView := levelViewOf s.out s.dir

/-- `OUT[4:0]` packed with the bit numbers of R25. -/
def outWord (o : Latch) : BitVec 5 :=
  BitVec.ofBool o.hvrst ++ BitVec.ofBool o.sclk ++ BitVec.ofBool o.dout ++ BitVec.ofBool o.iin ++ BitVec.ofBool o.din

/-- A direction bit: `0` is `IN`, `1` is `OUT` (R26). -/
def dirBit (d : Direction) : Bool := d == .output

/-- `DIR[3:0]` packed with the bit numbers of R26. -/
def dirWord (r : DirReg) : BitVec 4 :=
  BitVec.ofBool (dirBit r.sclk) ++ BitVec.ofBool (dirBit r.dout) ++ BitVec.ofBool (dirBit r.iin)
    ++ BitVec.ofBool (dirBit r.din)

/-- The output ports of R30. The inputs are `sysclk` (no time in the model), `por` (`powerOnReset`) and `dout_i`
(the answer of a sample). -/
structure Ports where
  din_o : Bool
  din_oe : Bool
  iin_o : Bool
  iin_oe : Bool
  sclk_o : Bool
  sclk_oe : Bool
  dout_o : Bool
  dout_oe : Bool
  hvrst_o : Bool
  done_o : Bool
deriving DecidableEq, Repr

/-- What the output ports carry in a state (R30). -/
def ports (s : State) : Ports where
  din_o := s.out.din
  din_oe := dirBit s.dir.din
  iin_o := s.out.iin
  iin_oe := dirBit s.dir.iin
  sclk_o := s.out.sclk
  sclk_oe := dirBit s.dir.sclk
  dout_o := s.out.dout
  dout_oe := dirBit s.dir.dout
  hvrst_o := s.out.hvrst
  done_o := done s

end Sys2Proof.Machine
end

