-- ==== Sys2Proof/Machine/Observe.lean ====
section
/-! DEFINITION. What can be observed of a run (R7): the event trace, the level view (R27), the clock-sampled view (R124),
and the event lists the rules give for each instruction (R121, R152, R170, R173). Nothing here is read by a step. -/

namespace Sys2Proof.Machine

/-- The event trace in the order the engine performed it (R7). -/
def trace (s : State) : List Event := s.log.reverse

/-! ## Following the lines through a trace -/

/-- The latch and the direction register: what the lines depend on. -/
structure Wires where
  out : Latch
  dir : DirReg
deriving DecidableEq, Repr

/-- The latch and the direction register of a state. -/
def wires (s : State) : Wires := { out := s.out, dir := s.dir }

/-- What an event does to the lines: the column `state written` of R11. -/
def wiresAfter (w : Wires) : Event → Wires
  | .drive l v => { w with out := w.out.write l v }
  | .setDir l d => { w with dir := w.dir.write l d }
  | .setDirAllOut => { w with dir := DirReg.allOut }
  | .sample _ => w
  | .delay _ => w

/-- The lines after a list of events, oldest first. -/
def replay (w : Wires) (es : List Event) : Wires := es.foldl wiresAfter w

/-- The level view of a trace: the 5-tuple after each event (R27). -/
def levelViews (w : Wires) : List Event → List LevelView
  | [] => []
  | e :: es => levelViewOf (wiresAfter w e).out (wiresAfter w e).dir :: levelViews (wiresAfter w e) es

/-- An event that raises the clock: `Drive(SCLK, 1)` while `OUT[SCLK] = 0` (R69). -/
def isRising (w : Wires) (e : Event) : Bool := e == .drive .sclk true && !w.out.sclk

/-- An event that lowers the clock: `Drive(SCLK, 0)` while `OUT[SCLK] = 1`. -/
def isFalling (w : Wires) (e : Event) : Bool := e == .drive .sclk false && w.out.sclk

/-- The clock-sampled view: `(OUT[DIN], OUT[IIN])` at each rising edge of `SCLK` (R7, R124). -/
def clockSampled (w : Wires) : List Event → List (Bool × Bool)
  | [] => []
  | e :: es =>
    if isRising w e then (w.out.din, w.out.iin) :: clockSampled (wiresAfter w e) es
    else clockSampled (wiresAfter w e) es

/-- How many events of a trace satisfy a test of the lines before the event. -/
def countEvents (test : Wires → Event → Bool) (w : Wires) : List Event → Nat
  | [] => 0
  | e :: es => (if test w e then 1 else 0) + countEvents test (wiresAfter w e) es

/-- An event that changes a latch (R123(f)). -/
def isLevelChange (w : Wires) (e : Event) : Bool := (wiresAfter w e).out != w.out

/-- `t(b)`: the positions `k` in 0 to 9 at which `W11(b)[k+1]` and `W11(b)[k]` differ (R123(f)). -/
def transitions (b : Byte) : Nat :=
  ((List.range 10).filter (fun k => (w11 b).getLsbD (k + 1) != (w11 b).getLsbD k)).length

/-- An event that is a `Drive` of a given line. -/
def isDriveOf (l : Line) : Event → Bool
  | .drive l' _ => l' == l
  | _ => false

/-! ## The event lists of the rules -/

/-- `Pulse()` (R120). -/
def pulseEvents : List Event := [.drive .sclk true, .drive .sclk false]

/-- The payload events of bit `k` (R121 step 2). -/
def bitEvents (d i : Byte) (k : Nat) : List Event :=
  [.drive .din (d.getLsbD k), .drive .iin (i.getLsbD k)] ++ pulseEvents

/-- The events of `XFER d, i`, the pseudocode of R121 step for step. -/
def transferEvents (d i : Byte) : List Event :=
  [.drive .din false, .drive .iin false] ++ pulseEvents
    ++ [7, 6, 5, 4, 3, 2, 1, 0].flatMap (bitEvents d i)
    ++ [.drive .din false, .drive .iin false] ++ pulseEvents ++ pulseEvents

/-- The 168 `Drive` events of a fuse write, before its wait (R152). -/
def fuseEvents (f : Fuse) (v : Byte) : List Event :=
  (fuseCalls f v).flatMap (fun p => transferEvents p.1 p.2)

/-- The events of `ENTER` (R170). -/
def enterEvents : List Event :=
  [.setDirAllOut, .drive .din false, .drive .iin false, .drive .dout false, .drive .hvrst true, .drive .hvrst false,
    .delay .tSettle1, .setDir .dout .input, .delay .tSettle2]

/-- The events of `SESSION` up to the first low sample, given the answers to its first three samples (R173). -/
def sessionEvents (b₁ b₂ b₃ : Bool) : List Event :=
  enterEvents ++ fuseEvents .low Config.fuseLow ++ [.sample b₁]
    ++ (if b₁ then fuseEvents .high Config.fuseHigh ++ [.sample b₂]
      ++ (if b₂ then fuseEvents .ext Config.fuseExt ++ [.sample b₃]
        ++ (if b₃ then [.drive .hvrst true] else [])
        else [])
      else [])

/-! ## Lower bounds of time (R12, R198, R224) -/

/-- The length of a delay event; 0 for any other. -/
def delayOf : Event → Nat
  | .delay t => Config.settleLength t
  | .drive _ _ => 0
  | .setDir _ _ => 0
  | .setDirAllOut => 0
  | .sample _ => 0

/-- The least total of the delays in a trace (R198). -/
def delayTime (es : List Event) : Nat := (es.map delayOf).sum

/-- Whether an event is one of the micro-steps that R224 counts in `CYC_PER_STEP`. -/
def isCounted : Event → Bool
  | .delay _ => false
  | .drive _ _ => true
  | .setDir _ _ => true
  | .setDirAllOut => true
  | .sample _ => true

/-- The cycles of `sysclk` that the steps other than delays take (R224). -/
def stepCycles (es : List Event) : Nat := (es.filter isCounted).length * Config.cycPerStep

end Sys2Proof.Machine
end

