-- ==== Sys2Proof/Safety.lean ====
section
/-! DEFINITION. What counts as a good state and a good run, in the terms the claims use: runs of steps, the final state
(R178), the launch premise (R177), the premise on the target (R70) and the invariant of the fixed program (R34). -/

namespace Sys2Proof.Machine

/-! ## Runs -/

/-- `n` steps, stopping at the first stop. -/
def stepN : Nat → State → Host.Outcome State Fault Refusal
  | 0, s => .next s
  | n + 1, s =>
    match step s with
    | .next t => stepN n t
    | .fault r => .fault r
    | .refused r => .refused r

/-- The meaning of one instruction, `n` times in a row. -/
def execN : Nat → Instr → State → Host.Outcome State Fault Refusal
  | 0, _, s => .next s
  | n + 1, i, s =>
    match exec i s with
    | .next t => execN n i t
    | .fault r => .fault r
    | .refused r => .refused r

/-- A state whose program word is `HALT`: the end of a run (R172, R178). -/
def IsFinal (s : State) : Prop := fetch s = some haltWord

/-- `TargetAcks` (R70): in every wait some sample is eventually answered high. -/
def TargetAcks : Prop := ∀ n, ∃ m, n ≤ m ∧ Config.doutLevel m = true

/-- Program space holds the words `ws` from `mpc` on. -/
def HoldsAt (s : State) (ws : List ProgWord) : Prop :=
  ∀ k < ws.length, Program.read s.prog (s.mpc.toNat + k) = ws[k]?

/-- `CoreReady` (R177). -/
structure CoreReady (s : State) : Prop where
  dirs : s.dir = readyDirs
  din : s.out.din = false
  iin : s.out.iin = false
  sclk : s.out.sclk = false
  hvrst : s.out.hvrst = false
  u : s.u = 0#6
  word : ∃ f v, HoldsAt s (fuseWords f v)

/-! ## The invariant of the fixed program -/

/-- The instruction at an address of a program; `none` where there is no word or a reserved one. -/
def instrAt (p : List ProgWord) (m : Nat) : Option Instr :=
  (Program.read p m).bind (fun w => (decodeWord w).toOption)

/-- The operand pair of the transfer at an address, if there is one. -/
def pairAt (p : List ProgWord) (m : Nat) : Option (Byte × Byte) := (instrAt p m).bind operandPair

/-- The operand pair of the last transfer below an address. -/
def lastPair (p : List ProgWord) : Nat → Option (Byte × Byte)
  | 0 => none
  | m + 1 => (pairAt p m).or (lastPair p m)

/-- The operand pair that `DREG` and `IREG` hold at `(m, u)` (R21): that of the transfer in progress once its first
micro-step is done, else that of the last one before. -/
def loadedPair (p : List ProgWord) (m u : Nat) : Option (Byte × Byte) :=
  if u = 0 then lastPair p m else (pairAt p m).or (lastPair p m)

/-- How many values `u` takes at an address (R22, R23). -/
def microCount (p : List ProgWord) (m : Nat) : Nat :=
  if (pairAt p m).isSome then 42 else if instrAt p m = some .enter then 9 else 1

/-- The directions at `(m, u)` (R26, R170). -/
def dirsAt (m u : Nat) : DirReg :=
  if m = 0 then
    if u = 0 then { din := .input, iin := .input, dout := .input, sclk := .input }
    else if u ≤ 7 then DirReg.allOut else readyDirs
  else readyDirs

/-- `OUT[HVRST]` at `(m, u)` (R34(c), C9). -/
def hvrstAt (m u : Nat) : Bool :=
  if m = 0 then decide (u ≤ 5) else decide (17 ≤ m)

/-- `OUT[SCLK]` when micro-step `u` of a transfer is next (R122). -/
def sclkAt (u : Nat) : Bool := decide (u = 41) || (decide (u < 40) && decide (u % 4 = 3))

/-- `OUT[DIN]` when micro-step `u` of a transfer of the data byte `d` is next (R122). -/
def dinAt (d : Byte) (u : Nat) : Bool := if u = 0 then false else frameBit d ((u - 1) / 4)

/-- `OUT[IIN]` when micro-step `u` of a transfer of the instruction byte `i` is next (R122). -/
def iinAt (i : Byte) (u : Nat) : Bool := if u ≤ 1 then false else frameBit i ((u - 2) / 4)

/-- The invariant of the fixed program at every micro-step: R34 and what R122 and R170 say between its boundaries. -/
structure Inv (s : State) : Prop where
  prog : s.prog = fixedProgram
  mpc : s.mpc.toNat ≤ 17
  u : s.u.toNat < microCount fixedProgram s.mpc.toNat
  dirs : s.dir = dirsAt s.mpc.toNat s.u.toNat
  dout : s.out.dout = false
  hvrst : s.out.hvrst = hvrstAt s.mpc.toNat s.u.toNat
  sclk : s.out.sclk = ((pairAt fixedProgram s.mpc.toNat).isSome && sclkAt s.u.toNat)
  din : s.out.din = ((pairAt fixedProgram s.mpc.toNat).isSome && dinAt s.dreg s.u.toNat)
  iin : s.out.iin = ((pairAt fixedProgram s.mpc.toNat).isSome && iinAt s.ireg s.u.toNat)
  regs : ∀ q, loadedPair fixedProgram s.mpc.toNat s.u.toNat = some q → s.dreg = q.1 ∧ s.ireg = q.2

end Sys2Proof.Machine
end

