-- ==== Sys2Proof/Certificates/Slice0/Obligations.lean ====
section
/-! DEFINITION. The statements about the engine, each one the formal reading of the rules its docstring cites. Where a
statement speaks of `samples` or `log`, those are the model's own fields (log entries 3 and 4). -/

open Sys2Proof Sys2Proof.Machine

/-! ## Encoding -/

/-- The decoding table of `95_test_vectors.md` 2.7 and the words of R94: the named pairs, the near misses that have no
name, the four instructions without operands, the reserved words, and the expansions of R153 to R155. -/
def Obligations.KnownWordsDecode : Prop :=
  decodeWord 0x0404C#19 = .ok .ldcmd ∧ decodeWord 0x0622C#19 = .ok (.lddata 0x62#8) ∧
  decodeWord 0x0402C#19 = .ok (.lddata 0x40#8) ∧ decodeWord 0x0002C#19 = .ok (.lddata 0x00#8) ∧
  decodeWord 0x0004C#19 = .ok (.xfer 0x00#8 0x4C#8) ∧ decodeWord 0x00164#19 = .ok (.xfer 0x01#8 0x64#8) ∧
  decodeWord 0x0AA55#19 = .ok (.xfer 0xAA#8 0x55#8) ∧ decodeWord 0x00000#19 = .ok (.xfer 0x00#8 0x00#8) ∧
  decodeWord 0x0FFFF#19 = .ok (.xfer 0xFF#8 0xFF#8) ∧
  decodeWord 0x00064#19 = .ok .sell ∧ decodeWord 0x00074#19 = .ok .selh ∧ decodeWord 0x00066#19 = .ok .sele ∧
  decodeWord 0x0006C#19 = .ok .wrl ∧ decodeWord 0x0007C#19 = .ok .wrh ∧ decodeWord 0x0006E#19 = .ok .wre ∧
  decodeWord 0x10000#19 = .ok .poll ∧ decodeWord 0x20000#19 = .ok .enter ∧
  decodeWord 0x30000#19 = .ok .exit ∧ decodeWord 0x40000#19 = .ok .halt ∧
  decodeWord 0x10001#19 = .error (.reservedOperand 1#3) ∧ decodeWord 0x4FF00#19 = .error (.reservedOperand 4#3) ∧
  decodeWord 0x50000#19 = .error (.reservedKind 5#3) ∧ decodeWord 0x60000#19 = .error (.reservedKind 6#3) ∧
  decodeWord 0x70000#19 = .error (.reservedKind 7#3) ∧ decodeWord 0x7FFFF#19 = .error (.reservedKind 7#3) ∧
  decodeWords [0x0404C#19, 0x0622C#19, 0x00064#19, 0x0006C#19, 0x10000#19] = some (.wfuseL 0x62#8) ∧
  decodeWords [0x0404C#19, 0x0DF2C#19, 0x00074#19, 0x0007C#19, 0x10000#19] = some (.wfuseH 0xDF#8) ∧
  decodeWords [0x0404C#19, 0x0FF2C#19, 0x00066#19, 0x0006E#19, 0x10000#19] = some (.wfuseE 0xFF#8)

/-- R103, clause by clause, for every value of the three fields, and every word has three fields: decoding is total. -/
def Obligations.DecodingFollowsKindThenName : Prop :=
  (∀ d i : Byte, decodeWord (packWord 0#3 d i) = .ok (
    if d = 0x40#8 ∧ i = 0x4C#8 then .ldcmd
    else if d = 0x00#8 ∧ i = 0x64#8 then .sell
    else if d = 0x00#8 ∧ i = 0x74#8 then .selh
    else if d = 0x00#8 ∧ i = 0x66#8 then .sele
    else if d = 0x00#8 ∧ i = 0x6C#8 then .wrl
    else if d = 0x00#8 ∧ i = 0x7C#8 then .wrh
    else if d = 0x00#8 ∧ i = 0x6E#8 then .wre
    else if i = 0x2C#8 then .lddata d
    else .xfer d i)) ∧
  (∀ (k : BitVec 3) (d i : Byte), 1 ≤ k.toNat → k.toNat ≤ 4 → decodeWord (packWord k d i) =
    if d = 0x00#8 ∧ i = 0x00#8 then
      .ok (if k = 1#3 then .poll else if k = 2#3 then .enter else if k = 3#3 then .exit else .halt)
    else .error (.reservedOperand k)) ∧
  (∀ (k : BitVec 3) (d i : Byte), 5 ≤ k.toNat → decodeWord (packWord k d i) = .error (.reservedKind k)) ∧
  (∀ w : ProgWord, packWord (kindOf w) (dataOf w) (instrOf w) = w)

/-- R99(a), U1: a step that fetches a reserved word refuses it by name. -/
def Obligations.ReservedWordIsRefused : Prop :=
  ∀ (s : State) (k : BitVec 3) (d i : Byte), fetch s = some (packWord k d i) →
    (5 ≤ k.toNat → step s = .refused (.reservedKind k)) ∧
    (1 ≤ k.toNat → k.toNat ≤ 4 → (d ≠ 0x00#8 ∨ i ≠ 0x00#8) → step s = .refused (.reservedOperand k))

/-- Every well-formed instruction, the macros included, is read back from its words (R94, R96, R102, R103). -/
def Obligations.DecodeOfEncode : Prop :=
  ∀ i : Instr, i.wellFormed = true → decodeWords (encode i) = some i

/-- A program word that decodes is the encoding of the instruction it decodes to, and that instruction is well formed:
each word has one meaning (R94, R103). -/
def Obligations.EncodeOfDecode : Prop :=
  ∀ (w : ProgWord) (i : Instr), decodeWord w = .ok i → encode i = [w] ∧ i.wellFormed = true

/-- R91: `W11` puts one zero bit above the byte and two below and loses nothing (R126(b)); slot `s` sends bit `10 - s`,
so the payload goes out most significant bit first in slots 1 to 8; and a transfer puts the frame of its data byte on
`DIN` and the frame of its instruction byte on `IIN`, one clock pulse per slot. -/
def Obligations.FramePlacesPayload : Prop :=
  (∀ b : Byte, (w11 b).toNat = 4 * b.toNat ∧
    (w11 b).getLsbD 10 = false ∧ (w11 b).getLsbD 1 = false ∧ (w11 b).getLsbD 0 = false ∧
    (∀ k < 8, (w11 b).getLsbD (k + 2) = b.getLsbD k) ∧
    (∀ slot ≤ 10, frameBit b slot = (w11 b).getLsbD (10 - slot)) ∧
    (∀ k < 8, frameBit b (8 - k) = b.getLsbD k)) ∧
  ∀ (d e : Byte) (w : Wires), w.out.sclk = false →
    clockSampled w (transferEvents d e) = (List.range 11).map (fun slot => (frameBit d slot, frameBit e slot))

/-- R97: the descriptor table, the packing, and where its bytes stand in `PROG`. -/
def Obligations.FuseDescriptors : Prop :=
  desc24 .low = 0x62646C#24 ∧ desc24 .high = 0xDF747C#24 ∧ desc24 .ext = 0xFF666E#24 ∧
  fuseValue .low = 0x62#8 ∧ fuseSelect .low = 0b01100100#8 ∧ fuseStrobe .low = 0b01101100#8 ∧
  fuseValue .high = 0xDF#8 ∧ fuseSelect .high = 0b01110100#8 ∧ fuseStrobe .high = 0b01111100#8 ∧
  fuseValue .ext = 0xFF#8 ∧ fuseSelect .ext = 0b01100110#8 ∧ fuseStrobe .ext = 0b01101110#8 ∧
  (∀ f m, (f, m) ∈ [(Fuse.low, 1), (Fuse.high, 6), (Fuse.ext, 11)] →
    (fixedProgram[m + 1]?).map dataOf = some (fuseValue f) ∧
    (fixedProgram[m + 2]?).map instrOf = some (fuseSelect f) ∧
    (fixedProgram[m + 3]?).map instrOf = some (fuseStrobe f))

/-- R96, R127 to R134: the eight named operand pairs. Each name is `XFER` of its pair; its program word, its `PAIR16`
(R92) and its two frames are those of the table; and the eight instruction bytes are distinct. -/
def Obligations.NamedPairs : Prop :=
  (∀ s, exec .ldcmd s = exec (.xfer 0x40#8 0x4C#8) s) ∧ (∀ v s, exec (.lddata v) s = exec (.xfer v 0x2C#8) s) ∧
  (∀ s, exec .sell s = exec (.xfer 0x00#8 0x64#8) s) ∧ (∀ s, exec .selh s = exec (.xfer 0x00#8 0x74#8) s) ∧
  (∀ s, exec .sele s = exec (.xfer 0x00#8 0x66#8) s) ∧ (∀ s, exec .wrl s = exec (.xfer 0x00#8 0x6C#8) s) ∧
  (∀ s, exec .wrh s = exec (.xfer 0x00#8 0x7C#8) s) ∧ (∀ s, exec .wre s = exec (.xfer 0x00#8 0x6E#8) s) ∧
  encode .ldcmd = [0x0404C#19] ∧ (∀ v, encode (.lddata v) = [(0#3 ++ v ++ 0x2C#8 : BitVec (3 + 8 + 8))]) ∧
  encode .sell = [0x00064#19] ∧ encode .selh = [0x00074#19] ∧ encode .sele = [0x00066#19] ∧
  encode .wrl = [0x0006C#19] ∧ encode .wrh = [0x0007C#19] ∧ encode .wre = [0x0006E#19] ∧
  pair16 0x40#8 0x4C#8 = 0b0100000001001100#16 ∧ (∀ v : Byte, (pair16 v 0x2C#8).toNat = 256 * v.toNat + 0x2C) ∧
  pair16 0x00#8 0x64#8 = 0b0000000001100100#16 ∧ pair16 0x00#8 0x74#8 = 0b0000000001110100#16 ∧
  pair16 0x00#8 0x66#8 = 0b0000000001100110#16 ∧ pair16 0x00#8 0x6C#8 = 0b0000000001101100#16 ∧
  pair16 0x00#8 0x7C#8 = 0b0000000001111100#16 ∧ pair16 0x00#8 0x6E#8 = 0b0000000001101110#16 ∧
  w11 0x40#8 = 0x100#11 ∧ w11 0x4C#8 = 0x130#11 ∧ (∀ v : Byte, (w11 v).toNat = v.toNat * 2 ^ 2) ∧
  w11 0x2C#8 = 0x0B0#11 ∧ w11 0x64#8 = 0x190#11 ∧ w11 0x74#8 = 0x1D0#11 ∧ w11 0x66#8 = 0x198#11 ∧
  w11 0x6C#8 = 0x1B0#11 ∧ w11 0x7C#8 = 0x1F0#11 ∧ w11 0x6E#8 = 0x1B8#11 ∧ w11 0x00#8 = 0x000#11 ∧
  ([0x4C#8, 0x2C#8, 0x64#8, 0x74#8, 0x66#8, 0x6C#8, 0x7C#8, 0x6E#8] : List Byte).Nodup

/-- R153 to R155: the five words of each fuse write, for every fuse byte; they are the four named transfers and the wait;
and where the fixed program holds them. -/
def Obligations.FuseWriteEncodings : Prop :=
  (∀ v : Byte,
    encode (.wfuseL v) = [0x0404C#19, (0#3 ++ v ++ 0x2C#8 : BitVec (3 + 8 + 8)), 0x00064#19, 0x0006C#19, 0x10000#19] ∧
    encode (.wfuseH v) = [0x0404C#19, (0#3 ++ v ++ 0x2C#8 : BitVec (3 + 8 + 8)), 0x00074#19, 0x0007C#19, 0x10000#19] ∧
    encode (.wfuseE v) = [0x0404C#19, (0#3 ++ v ++ 0x2C#8 : BitVec (3 + 8 + 8)), 0x00066#19, 0x0006E#19, 0x10000#19] ∧
    encode (.wfuseL v) = encode .ldcmd ++ encode (.lddata v) ++ encode .sell ++ encode .wrl ++ encode .poll ∧
    encode (.wfuseH v) = encode .ldcmd ++ encode (.lddata v) ++ encode .selh ++ encode .wrh ++ encode .poll ∧
    encode (.wfuseE v) = encode .ldcmd ++ encode (.lddata v) ++ encode .sele ++ encode .wre ++ encode .poll) ∧
  (fixedProgram.drop 1).take 5 = encode (.wfuseL 0x62#8) ∧ (fixedProgram.drop 6).take 5 = encode (.wfuseH 0xDF#8) ∧
  (fixedProgram.drop 11).take 5 = encode (.wfuseE 0xFF#8)

/-- R98: the fixed program, word for word and instruction for instruction; it is the expansion of `SESSION`. -/
def Obligations.FixedProgramIsTheSession : Prop :=
  State.reset.prog =
    [0x20000#19, 0x0404C#19, 0x0622C#19, 0x00064#19, 0x0006C#19, 0x10000#19, 0x0404C#19, 0x0DF2C#19, 0x00074#19,
      0x0007C#19, 0x10000#19, 0x0404C#19, 0x0FF2C#19, 0x00066#19, 0x0006E#19, 0x10000#19, 0x30000#19, 0x40000#19] ∧
  State.reset.prog.map decodeWord =
    [.ok .enter, .ok .ldcmd, .ok (.lddata 0x62#8), .ok .sell, .ok .wrl, .ok .poll, .ok .ldcmd, .ok (.lddata 0xDF#8),
      .ok .selh, .ok .wrh, .ok .poll, .ok .ldcmd, .ok (.lddata 0xFF#8), .ok .sele, .ok .wre, .ok .poll, .ok .exit,
      .ok .halt] ∧
  encode .session = State.reset.prog ∧
  encode .session = encode .enter ++ encode (.wfuseL 0x62#8) ++ encode (.wfuseH 0xDF#8) ++ encode (.wfuseE 0xFF#8)
    ++ encode .exit ++ encode .halt

/-! ## A step -/

/-- A step reads the word at `mpc`, decodes it and runs it (R12, R61, R103); it refuses by name where program space has
no word, which no run of the fixed program meets (log entry 10). That it reads and decodes the word again at every
micro-step, where R61 speaks of one read per macro-step, is the model's own (log entry 16). -/
def Obligations.StepRunsDecodedInstruction : Prop :=
  (∀ s w i, fetch s = some w → decodeWord w = .ok i → step s = exec i s) ∧
  (∀ s, fetch s = none → step s = .refused .noProgramWord) ∧
  (∀ s, fetch s = if s.mpc.toNat < 18 then s.prog[s.mpc.toNat]? else none)

/-- A word placed where the next step fetches is the word it fetches, and the rest of program space is as before
(R61; the placing is the model's own, log entry 1); the registers stay, and the lines too unless the word is one that
relies on a finished entry: then they are those of the launch premise (R177). -/
def Obligations.PlacedWordIsFetched : Prop :=
  ∀ (s : State) (w : ProgWord), Program.wf s.prog = true → s.mpc.toNat < 18 →
    fetch (s.withFetchWord 24 w.toNat) = some w ∧ (s.withFetchWord 24 w.toNat).u = 0#6 ∧
    Program.wf (s.withFetchWord 24 w.toNat).prog = true ∧
    (∀ a, a ≠ s.mpc.toNat → Program.read (s.withFetchWord 24 w.toNat).prog a = Program.read s.prog a) ∧
    (s.withFetchWord 24 w.toNat).mpc = s.mpc ∧ (s.withFetchWord 24 w.toNat).dreg = s.dreg ∧
    (s.withFetchWord 24 w.toNat).ireg = s.ireg ∧
    (∀ i, decodeWord w = .ok i → needsEntry i = false →
      (s.withFetchWord 24 w.toNat).out = s.out ∧ (s.withFetchWord 24 w.toNat).dir = s.dir) ∧
    (∀ i, decodeWord w = .ok i → needsEntry i = true →
      (s.withFetchWord 24 w.toNat).dir = readyDirs ∧
      (s.withFetchWord 24 w.toNat).out =
        { s.out with din := false, iin := false, sclk := false, hvrst := false })

/-! ## Transfers: `XFER`, `LDCMD`, `LDDATA`, `SELL`, `SELH`, `SELE`, `WRL`, `WRH`, `WRE` -/

/-- R121, R122: for each of the nine transfer instructions, every micro-step `u` from 0 to 41 answers a next state: the
operands are loaded at `u = 0`; the event is the `u`-th of the pseudocode for the operands in `DREG` and `IREG`; it acts
on the latch; the counter goes to the next micro-step, from 41 to the next word; everything else is unchanged. The
premises at `u = 0` are the precondition of R123: the clock low and the three serial lines outputs. -/
def Obligations.TransferMicroStep : Prop :=
  ∀ (i : Instr) (d e : Byte) (s : State), operandPair i = some (d, e) → s.u.toNat < 42 →
    (s.u.toNat = 0 → s.out.sclk = false ∧ s.dir.serialOut = true) →
    ∃ (D I : Byte) (l : Line) (v : Bool),
      (D, I) = (if s.u.toNat = 0 then (d, e) else (s.dreg, s.ireg)) ∧
      (transferEvents D I)[s.u.toNat]? = some (.drive l v) ∧
      exec i s = .next { s with
        dreg := D
        ireg := I
        out := s.out.write l v
        log := .drive l v :: s.log
        mpc := if s.u.toNat = 41 then s.mpc + 1 else s.mpc
        u := if s.u.toNat = 41 then 0#6 else s.u + 1 }

/-- The stops of a transfer: no micro-step 42 or above (log entry 11), no start with the clock high (U6, R203), and no
start while one of the three serial lines is no output, as before `ENTER` (R123, R177, R203; log entry 15). -/
def Obligations.TransferStops : Prop :=
  ∀ (i : Instr) (d e : Byte) (s : State), operandPair i = some (d, e) →
    (42 ≤ s.u.toNat → exec i s = .refused .noSuchMicroStep) ∧
    (s.u.toNat = 0 → s.out.sclk = true → exec i s = .refused .transferWithClockHigh) ∧
    (s.u.toNat = 0 → s.out.sclk = false →
      (s.dir.din = .input ∨ s.dir.iin = .input ∨ s.dir.sclk = .input) → exec i s = .refused .linesNotConfigured)

/-- The frame of the nine transfer instructions (R121, R122, R123(e)): directions, data-out, the high-voltage line, the
sample index and program space are unchanged; the operand registers change only at `u = 0`; each serial line changes
only at its own phase. -/
def Obligations.TransferFrame : Prop :=
  ∀ (i : Instr) (d e : Byte) (s t : State), operandPair i = some (d, e) → exec i s = .next t →
    t.dir = s.dir ∧ t.out.dout = s.out.dout ∧ t.out.hvrst = s.out.hvrst ∧ t.samples = s.samples ∧
    (s.u.toNat ≠ 0 → t.dreg = s.dreg ∧ t.ireg = s.ireg) ∧
    (¬ (s.u.toNat < 40 ∧ s.u.toNat % 4 = 0) → t.out.din = s.out.din) ∧
    (¬ (s.u.toNat < 40 ∧ s.u.toNat % 4 = 1) → t.out.iin = s.out.iin) ∧
    (s.u.toNat < 40 → s.u.toNat % 4 < 2 → t.out.sclk = s.out.sclk) ∧
    ∀ a, Program.read t.prog a = Program.read s.prog a

/-- R121, R123(d): forty-two micro-steps of a transfer from `u = 0` under the precondition of R123 load the operands, send the events
of the pseudocode, leave the three serial lines low and the counter at the next word, and change nothing else. -/
def Obligations.WholeTransfer : Prop :=
  ∀ (i : Instr) (d e : Byte) (s : State), operandPair i = some (d, e) → s.u = 0#6 → s.out.sclk = false →
    s.dir.serialOut = true →
    execN 42 i s = .next { s with
      dreg := d
      ireg := e
      mpc := s.mpc + 1
      u := 0#6
      out := { s.out with din := false, iin := false, sclk := false }
      log := (transferEvents d e).reverse ++ s.log }

/-- R121, R135: from the first micro-step of a transfer word the machine's own steps run the whole transfer, with
nothing between its micro-steps, in any program. The premises on the lines hold at every start of a transfer
(R120, R34). -/
def Obligations.TransferIsNotInterrupted : Prop :=
  ∀ (s : State) (d e : Byte), fetch s = some (xferWord d e) → s.u = 0#6 → s.out.sclk = false →
    s.dir.serialOut = true →
    stepN 42 s = .next { s with
      dreg := d
      ireg := e
      mpc := s.mpc + 1
      u := 0#6
      out := { s.out with din := false, iin := false, sclk := false }
      log := (transferEvents d e).reverse ++ s.log }

/-- R124: what is on the two lines at the eleven rising edges of the clock. -/
def Obligations.ClockSampledTransfer : Prop :=
  ∀ (d e : Byte) (w : Wires), w.out.sclk = false →
    clockSampled w (transferEvents d e) =
      [(false, false)] ++ [7, 6, 5, 4, 3, 2, 1, 0].map (fun k => (d.getLsbD k, e.getLsbD k))
        ++ [(false, false), (false, false)]

/-- R123(a), R123(b): 42 events, 10 on `DIN`, 10 on `IIN`, 22 on `SCLK`, 11 rising and 11 falling edges. -/
def Obligations.TransferEventCounts : Prop :=
  ∀ (d e : Byte) (w : Wires), w.out.sclk = false →
    (transferEvents d e).length = 42 ∧
    ((transferEvents d e).filter (isDriveOf .din)).length = 10 ∧
    ((transferEvents d e).filter (isDriveOf .iin)).length = 10 ∧
    ((transferEvents d e).filter (isDriveOf .sclk)).length = 22 ∧
    countEvents isRising w (transferEvents d e) = 11 ∧ countEvents isFalling w (transferEvents d e) = 11

/-- R123(f): the number of level changes of a transfer, between 22 and 38. -/
def Obligations.TransferLevelChanges : Prop :=
  ∀ (d e : Byte) (w : Wires), w.out.din = false → w.out.iin = false → w.out.sclk = false →
    countEvents isLevelChange w (transferEvents d e) = 22 + transitions d + transitions e ∧
    transitions d ≤ 8 ∧ transitions e ≤ 8

/-- R123(c), R225: wherever the fixed program stands, a step that writes `DIN` or `IIN` finds the clock low. -/
def Obligations.SerialLinesWrittenWhileClockLow : Prop :=
  ∀ (s t : State) (v : Bool), Inv s → step s = .next t →
    (t.log = .drive .din v :: s.log ∨ t.log = .drive .iin v :: s.log) → s.out.sclk = false

/-! ## `POLL` -/

/-- R150: the encoding; one sample of the wait, whose answer is a free value: the counter moves on exactly when it is
high, and nothing else of the machine changes; and as a whole, where the first high answer is the one after `n` low ones,
the wait takes `n + 1` samples and goes on to the next word. The premises on the directions are what entry leaves (R34);
what `POLL` does without them is `PollStops` (U3, log entry 15). -/
def Obligations.PollStep : Prop :=
  encode .poll = [0x10000#19] ∧
  (∀ s : State, s.u = 0#6 → s.dir.dout = .input → s.dir.serialOut = true →
    exec .poll s = .next { s with
      mpc := if Config.doutLevel s.samples = true then s.mpc + 1 else s.mpc
      samples := s.samples + 1
      log := .sample (Config.doutLevel s.samples) :: s.log }) ∧
  ∀ (n : Nat) (s : State), fetch s = some 0x10000#19 → s.u = 0#6 → s.dir.dout = .input →
    s.dir.serialOut = true →
    (∃ k < n, Config.doutLevel (s.samples + k) = true) ∨ Config.doutLevel (s.samples + n) = false ∨
    stepN (n + 1) s = .next { s with
      mpc := s.mpc + 1
      samples := s.samples + (n + 1)
      log := .sample true :: (List.replicate n (.sample false) ++ s.log) }

/-- R151(b), R195: a step at a `POLL` word leaves it on a high sample and only then. -/
def Obligations.PollNeverLeavesOnLowSample : Prop :=
  ∀ s t : State, fetch s = some pollWord → step s = .next t →
    (t.log = .sample true :: s.log ∧ t.mpc = s.mpc + 1 ∧ t.u = 0#6) ∨
    (t.log = .sample false :: s.log ∧ t.mpc = s.mpc ∧ t.u = s.u)

/-- R151(f), R191: `n` steps at a `POLL` word either stay at it, with `n` low samples and nothing else changed, or one of
the `n` answers was high. -/
def Obligations.PollHangsWhileLow : Prop :=
  ∀ (n : Nat) (s : State), fetch s = some pollWord → s.u = 0#6 → s.dir.dout = .input →
    s.dir.serialOut = true →
    (∃ k < n, Config.doutLevel (s.samples + k) = true) ∨
    stepN n s = .next { s with
      samples := s.samples + n
      log := List.replicate n (.sample false) ++ s.log }

/-- The stops of `POLL`: it has one micro-step (R22, log entry 11), it does not sample a line the engine drives
(R151(g), U3), and it does not run while one of the three serial lines is no output, as before `ENTER` (R203; log
entry 15). -/
def Obligations.PollStops : Prop :=
  ∀ s : State, (s.u ≠ 0#6 → exec .poll s = .refused .noSuchMicroStep) ∧
    (s.u = 0#6 → s.dir.dout = .output → exec .poll s = .refused .sampleWhileDriven) ∧
    (s.u = 0#6 → s.dir.dout = .input →
      (s.dir.din = .input ∨ s.dir.iin = .input ∨ s.dir.sclk = .input) → exec .poll s = .refused .linesNotConfigured)

/-- R151(g), R229: in any state, a step that samples data-out finds the line not driven by the engine. -/
def Obligations.SampleOnlyWhileNotDriven : Prop :=
  ∀ (s t : State) (b : Bool), step s = .next t → t.log = .sample b :: s.log → pin s .dout = .z

/-! ## The macros `WFUSE.L`, `WFUSE.H`, `WFUSE.E` -/

/-- R152 to R155: a fuse write from a clock-low state with the directions that entry leaves sends its four transfers and takes the first
sample; `DREG` is `0x00`, `IREG` the strobe, the serial lines are low; the counter is past the five words when the sample
was high and at the `POLL` word when it was low (log entry 6); nothing else changes. -/
def Obligations.FuseWriteCompletes : Prop :=
  ∀ (i : Instr) (f : Fuse) (v : Byte) (s : State), fuseOperand i = some (f, v) →
    s.u = 0#6 → s.out.sclk = false → s.dir.dout = .input → s.dir.serialOut = true →
    exec i s = .next { s with
      dreg := 0x00#8
      ireg := fuseStrobe f
      mpc := if Config.doutLevel s.samples = true then s.mpc + 5 else s.mpc + 4
      out := { s.out with din := false, iin := false, sclk := false }
      samples := s.samples + 1
      log := .sample (Config.doutLevel s.samples) :: ((fuseEvents f v).reverse ++ s.log) }

/-- R102, R152 (log entry 6): where program space holds the five words of a fuse write, 169 steps of the machine are the meaning of the
macro, whatever the sample. -/
def Obligations.FuseWriteIsItsExpansion : Prop :=
  ∀ (i : Instr) (f : Fuse) (v : Byte) (s : State), fuseOperand i = some (f, v) → HoldsAt s (encode i) →
    s.u = 0#6 → s.out.sclk = false → s.dir.dout = .input → s.dir.serialOut = true → stepN 169 s = exec i s

/-- The frame of the fuse writes (R152, R156): directions, data-out, the high-voltage line and program space are
unchanged. That exactly one sample is taken, where R152 says at least one, is the model's own: the meaning of a macro
ends at the first sample of its wait (log entry 6). -/
def Obligations.FuseWriteFrame : Prop :=
  ∀ (i : Instr) (f : Fuse) (v : Byte) (s t : State), fuseOperand i = some (f, v) → exec i s = .next t →
    t.dir = s.dir ∧ t.out.dout = s.out.dout ∧ t.out.hvrst = s.out.hvrst ∧ t.samples = s.samples + 1 ∧
    ∀ a, Program.read t.prog a = Program.read s.prog a

/-- The stops of the macros: they start at a first micro-step (log entry 11), with the clock low (U6), and a fuse write
with data-out not driven (U3) and the three serial lines outputs (R123, R203; log entry 15). -/
def Obligations.MacroStops : Prop :=
  (∀ (i : Instr) (f : Fuse) (v : Byte) (s : State), fuseOperand i = some (f, v) →
    (s.u ≠ 0#6 → exec i s = .refused .noSuchMicroStep) ∧
    (s.u = 0#6 → s.out.sclk = true → exec i s = .refused .transferWithClockHigh) ∧
    (s.u = 0#6 → s.out.sclk = false → s.dir.dout = .output → exec i s = .refused .sampleWhileDriven) ∧
    (s.u = 0#6 → s.out.sclk = false → s.dir.dout = .input →
      (s.dir.din = .input ∨ s.dir.iin = .input ∨ s.dir.sclk = .input) → exec i s = .refused .linesNotConfigured)) ∧
  (∀ s : State, (s.u ≠ 0#6 → exec .session s = .refused .noSuchMicroStep) ∧
    (s.u = 0#6 → s.out.sclk = true → exec .session s = .refused .transferWithClockHigh))

/-! ## `ENTER`, `EXIT`, `HALT`, `SESSION` -/

/-- R170: every micro-step `u` of `ENTER` from 0 to 8 answers a next state: the event is the `u`-th of the rule, it acts
on the latch and the directions, the counter goes to the next micro-step, from 8 to the next word, and nothing else
changes. -/
def Obligations.EnterMicroStep : Prop :=
  ∀ s : State, s.u.toNat < 9 →
    ∃ ev, enterEvents[s.u.toNat]? = some ev ∧
      exec .enter s = .next { s with
        out := (wiresAfter (wires s) ev).out
        dir := (wiresAfter (wires s) ev).dir
        log := ev :: s.log
        mpc := if s.u.toNat = 8 then s.mpc + 1 else s.mpc
        u := if s.u.toNat = 8 then 0#6 else s.u + 1 }

/-- R170, R223: nine micro-steps of `ENTER` configure the lines, hold data, instruction and data-out low, assert the high
voltage and turn data-out round; the clock's latch and the operand registers are not written. -/
def Obligations.WholeEnter : Prop :=
  ∀ s : State, s.u = 0#6 →
    execN 9 .enter s = .next { s with
      mpc := s.mpc + 1
      out := { s.out with din := false, iin := false, dout := false, hvrst := false }
      dir := { din := .output, iin := .output, dout := .input, sclk := .output }
      log := enterEvents.reverse ++ s.log }

/-- R170, R171, `95_test_vectors.md` 2.6. The entry, row by row: after `k` steps from reset, for `k` from 0 to 9, the
newest event, the level view and the counter are those of the table. The exit: from every state of the fixed program at
`mpc = 16`, `EXIT` takes the level view of R171 before it to the one after it, with its one event. -/
def Obligations.EntryAndExitLevelViews : Prop :=
  (∀ r ∈ [
      (0, none, (⟨.z, .z, .z, .z, .level true⟩ : LevelView), 0#5, 0#6),
      (1, some .setDirAllOut, ⟨.level false, .level false, .level false, .level false, .level true⟩, 0#5, 1#6),
      (2, some (.drive .din false), ⟨.level false, .level false, .level false, .level false, .level true⟩, 0#5, 2#6),
      (3, some (.drive .iin false), ⟨.level false, .level false, .level false, .level false, .level true⟩, 0#5, 3#6),
      (4, some (.drive .dout false), ⟨.level false, .level false, .level false, .level false, .level true⟩, 0#5, 4#6),
      (5, some (.drive .hvrst true), ⟨.level false, .level false, .level false, .level false, .level true⟩, 0#5, 5#6),
      (6, some (.drive .hvrst false), ⟨.level false, .level false, .level false, .level false, .level false⟩, 0#5, 6#6),
      (7, some (.delay .tSettle1), ⟨.level false, .level false, .level false, .level false, .level false⟩, 0#5, 7#6),
      (8, some (.setDir .dout .input), ⟨.level false, .level false, .z, .level false, .level false⟩, 0#5, 8#6),
      (9, some (.delay .tSettle2), ⟨.level false, .level false, .z, .level false, .level false⟩, 1#5, 0#6)],
    ∃ t, stepN r.1 State.reset = .next t ∧ t.log.head? = r.2.1 ∧ levelView t = r.2.2.1 ∧
      t.mpc = r.2.2.2.1 ∧ t.u = r.2.2.2.2) ∧
  ∀ s : State, Inv s → s.mpc = 16#5 →
    levelView s = ⟨.level false, .level false, .z, .level false, .level false⟩ ∧
    ∃ t, exec .exit s = .next t ∧ t.log = .drive .hvrst true :: s.log ∧
      levelView t = ⟨.level false, .level false, .z, .level false, .level true⟩

/-- The frame of `ENTER` (R170): the operand registers, the clock's latch, the sample index and program space. -/
def Obligations.EnterFrame : Prop :=
  ∀ s t : State, exec .enter s = .next t →
    t.dreg = s.dreg ∧ t.ireg = s.ireg ∧ t.out.sclk = s.out.sclk ∧ t.samples = s.samples ∧
    ∀ a, Program.read t.prog a = Program.read s.prog a

/-- R171: `EXIT` drives the reset line high and goes on to the next word; nothing else changes; at `mpc = 16` it makes
`done` rise; and no later step of the fixed program drives the line low. The last clause speaks of a step at `HALT`,
where R172 gives no micro-step: it is R172 read with log entry 5, the model's own. -/
def Obligations.ExitStep : Prop :=
  encode .exit = [0x30000#19] ∧ fixedProgram[16]? = some 0x30000#19 ∧
  (∀ s : State, s.u = 0#6 →
    exec .exit s = .next { s with
      out := { s.out with hvrst := true }
      mpc := s.mpc + 1
      log := .drive .hvrst true :: s.log }) ∧
  (∀ s t : State, s.mpc = 16#5 → exec .exit s = .next t → done s = false ∧ done t = true ∧ sess t = .done) ∧
  (∀ s t : State, s.prog = fixedProgram → s.mpc = 17#5 → step s = .next t → t = s)

/-- R172, R178: `HALT` changes nothing, ever; the final state is a step to itself (log entry 5). -/
def Obligations.HaltIsFinal : Prop :=
  (∀ s : State, exec .halt s = .next s) ∧ ∀ (n : Nat) (s : State), IsFinal s → stepN n s = .next s

/-- The frames of `POLL`, `EXIT` and `HALT` (R150, R151(d), R171, R172). -/
def Obligations.PollExitHaltFrame : Prop :=
  ∀ (i : Instr) (s t : State), (i = .poll ∨ i = .exit ∨ i = .halt) → exec i s = .next t →
    t.dreg = s.dreg ∧ t.ireg = s.ireg ∧ t.dir = s.dir ∧
    t.out.din = s.out.din ∧ t.out.iin = s.out.iin ∧ t.out.dout = s.out.dout ∧ t.out.sclk = s.out.sclk ∧
    (i ≠ .exit → t.out.hvrst = s.out.hvrst) ∧ (i ≠ .poll → t.samples = s.samples) ∧
    ∀ a, Program.read t.prog a = Program.read s.prog a

/-- Where `ENTER` and `EXIT` have no micro-step (R22, log entry 11). -/
def Obligations.EnterExitStops : Prop :=
  ∀ s : State, (9 ≤ s.u.toNat → exec .enter s = .refused .noSuchMicroStep) ∧
    (s.u ≠ 0#6 → exec .exit s = .refused .noSuchMicroStep)

/-- R173: `SESSION` from a clock-low state runs the entry and the fuse writes in order, each wait's first sample deciding
whether it goes on; after three high samples the exit is done, the counter is at `HALT`, and the lines are as R178 says.
What a low sample leaves is log entry 6. -/
def Obligations.SessionCompletes : Prop :=
  ∀ s : State, s.u = 0#6 → s.out.sclk = false →
    exec .session s = .next { s with
      dreg := 0x00#8
      ireg := if Config.doutLevel s.samples = true then
          if Config.doutLevel (s.samples + 1) = true then 0x6E#8 else 0x7C#8
        else 0x6C#8
      mpc := if Config.doutLevel s.samples = true then
          if Config.doutLevel (s.samples + 1) = true then
            if Config.doutLevel (s.samples + 2) = true then s.mpc + 17 else s.mpc + 15
          else s.mpc + 10
        else s.mpc + 5
      out := { din := false, iin := false, dout := false, sclk := false,
               hvrst := Config.doutLevel s.samples && Config.doutLevel (s.samples + 1)
                 && Config.doutLevel (s.samples + 2) }
      dir := readyDirs
      samples := if Config.doutLevel s.samples = true then
          if Config.doutLevel (s.samples + 1) = true then s.samples + 3 else s.samples + 2
        else s.samples + 1
      log := (sessionEvents (Config.doutLevel s.samples) (Config.doutLevel (s.samples + 1))
        (Config.doutLevel (s.samples + 2))).reverse ++ s.log }

/-- R173, R98 (log entry 6): the meaning of `SESSION` is a run of the fixed program, from its first word; the run is at least as long as
entry and one fuse write, and at most 517 steps (514 events and three samples, R224). -/
def Obligations.SessionIsRunOfFixedProgram : Prop :=
  ∀ s : State, s.prog = fixedProgram → s.mpc = 0#5 → s.u = 0#6 → s.out.sclk = false →
    ∃ n, 178 ≤ n ∧ n ≤ 517 ∧ stepN n s = exec .session s

/-- The frame of `SESSION`: program space is unchanged, and the data-out line is left low and not driven (R170, R173). -/
def Obligations.SessionFrame : Prop :=
  ∀ s t : State, exec .session s = .next t →
    t.out.dout = false ∧ t.dir = readyDirs ∧ ∀ a, Program.read t.prog a = Program.read s.prog a

/-- R198, R224: the delays of an entry add up to the two settling lengths, and its other seven micro-steps take
`CYC_PER_STEP` each at least. -/
def Obligations.DelaysOfEntry : Prop :=
  delayTime enterEvents = (Config.settleLength .tSettle1 : Nat) + Config.settleLength .tSettle2 ∧
  stepCycles enterEvents = 7 * Config.cycPerStep

/-! ## The whole machine -/

/-- R31: what reset leaves; the values are the spec's own decision D11. -/
def Obligations.ResetState : Prop :=
  State.reset.dreg = 0x00#8 ∧ State.reset.ireg = 0x00#8 ∧ State.reset.mpc = 0#5 ∧ State.reset.u = 0#6 ∧
  outWord State.reset.out = 0b10000#5 ∧ dirWord State.reset.dir = 0b0000#4 ∧
  sess State.reset = .idle ∧ done State.reset = false ∧ fetch State.reset = some enterWord

/-- R220, R233: power-on reset puts every piece of the spec's state at its reset value, whatever the engine was doing,
and leaves the program, which is the hardware's own. -/
def Obligations.PowerOnResetFromAnywhere : Prop :=
  ∀ s : State,
    (powerOnReset s).dreg = State.reset.dreg ∧ (powerOnReset s).ireg = State.reset.ireg ∧
    (powerOnReset s).mpc = State.reset.mpc ∧ (powerOnReset s).u = State.reset.u ∧
    (powerOnReset s).out = State.reset.out ∧ (powerOnReset s).dir = State.reset.dir ∧
    pin (powerOnReset s) .hvrst = .level true ∧ pin (powerOnReset s) .din = .z ∧ done (powerOnReset s) = false ∧
    (powerOnReset s).prog = s.prog

/-- The invariant of the fixed program holds after reset (R31, R34). -/
def Obligations.InvariantAtReset : Prop := Inv State.reset

/-- Every step keeps the invariant of the fixed program: R34, and between its boundaries what R122 and R170 say of every
line, of the directions and of the operand registers. -/
def Obligations.StepKeepsInvariant : Prop :=
  ∀ s t : State, Inv s → step s = .next t → Inv t

/-- R34(a) to (d) from the invariant: the state of the lines at every macro-step boundary, and of the high-voltage line
inside `ENTER`. -/
def Obligations.LineStateAtBoundaries : Prop :=
  ∀ s : State, Inv s →
    (s.u = 0#6 → s.out.sclk = false) ∧
    (s.u = 0#6 → 1 ≤ s.mpc.toNat → s.out.din = false ∧ s.out.iin = false ∧ s.dir = readyDirs) ∧
    (s.out.hvrst = false ↔ (s.mpc = 0#5 ∧ 6 ≤ s.u.toNat) ∨ (1 ≤ s.mpc.toNat ∧ s.mpc.toNat ≤ 16)) ∧
    s.out.dout = false

/-- R203: under the invariant every step answers a next state; the fixed program meets no refusal and no fault. At the
`HALT` word, to which R203 gives the outcome final, the next state is the model's own (log entry 5). -/
def Obligations.FixedProgramNeverStops : Prop :=
  ∀ s : State, Inv s → ∃ t, step s = .next t

/-- R34(e), R23: under the invariant the macro part of the counter stays or goes up by one, and goes up only from the last
micro-step of its word. -/
def Obligations.CounterNeverDecreases : Prop :=
  ∀ s t : State, Inv s → step s = .next t →
    (t.mpc = s.mpc ∧ (t.u.toNat = s.u.toNat ∨ t.u.toNat = s.u.toNat + 1)) ∨
    (t.mpc.toNat = s.mpc.toNat + 1 ∧ t.u = 0#6 ∧ s.u.toNat + 1 = microCount fixedProgram s.mpc.toNat)

/-- R61, R77: no instruction writes program space, and so every step keeps its form and what every fetch reads. -/
def Obligations.ProgramSpaceNeverWritten : Prop :=
  ∀ (i : Instr) (s t : State), exec i s = .next t →
    (∀ a, Program.read t.prog a = Program.read s.prog a) ∧ Program.wf t.prog = Program.wf s.prog

/-- R12, R193: every step appends exactly one event to the trace, but for `HALT`, which appends none and changes
nothing. -/
def Obligations.OneEventPerMicroStep : Prop :=
  ∀ s t : State, step s = .next t → (∃ ev, t.log = ev :: s.log) ∨ (fetch s = some haltWord ∧ t = s)

/-- R7, R11, R73: the trace explains the lines. If replaying it from the reset levels gives the latch and the directions
before a step, it does so after. -/
def Obligations.TraceExplainsLines : Prop :=
  ∀ s t : State, replay (wires State.reset) (trace s) = wires s → step s = .next t →
    replay (wires State.reset) (trace t) = wires t

/-- R25, R34(d): no instruction drives data-out high. -/
def Obligations.DataOutNeverDrivenHigh : Prop :=
  ∀ (i : Instr) (s t : State), exec i s = .next t → s.out.dout = false → t.out.dout = false

/-- R62: which instruction reaches which line, for an instruction that appends one event. -/
def Obligations.LineAccessTable : Prop :=
  ∀ (i : Instr) (s t : State) (ev : Event), exec i s = .next t → t.log = ev :: s.log →
    (∀ v, ev = .drive .din v ∨ ev = .drive .iin v → (operandPair i).isSome = true ∨ i = .enter) ∧
    (∀ v, ev = .drive .sclk v → (operandPair i).isSome = true) ∧
    (∀ v, ev = .drive .dout v → i = .enter ∧ v = false) ∧
    (∀ v, ev = .drive .hvrst v → i = .enter ∨ i = .exit) ∧
    (∀ l d, ev = .setDir l d → i = .enter ∧ l = .dout ∧ d = .input) ∧
    (ev = .setDirAllOut → i = .enter) ∧
    (∀ b, ev = .sample b → i = .poll)

/-- R21: `DREG` and `IREG` change only at the first micro-step of a transfer, which loads them from its word. -/
def Obligations.OperandRegistersLoadedAtTransferStart : Prop :=
  ∀ s t : State, step s = .next t → (t.dreg ≠ s.dreg ∨ t.ireg ≠ s.ireg) →
    s.u = 0#6 ∧ ∃ d e, fetch s = some (xferWord d e) ∧ t.dreg = d ∧ t.ireg = e

/-- R178, R191, R70: from every state of the fixed program a run reaches `HALT`, or data-out reads low at every sample
from some index on, which is the negation of `TargetAcks`. -/
def Obligations.RunEndsOrDataOutStaysLow : Prop :=
  ∀ s : State, Inv s →
    (∃ n t, stepN n s = .next t ∧ IsFinal t ∧ done t = true) ∨ (∃ m, ∀ n, m ≤ n → Config.doutLevel n = false)

/-- R178: the final state of the fixed program. -/
def Obligations.FinalStateOfSession : Prop :=
  ∀ s : State, Inv s → s.mpc = 17#5 →
    IsFinal s ∧ s.u = 0#6 ∧ s.dreg = 0x00#8 ∧ s.ireg = 0x6E#8 ∧ done s = true ∧
    s.out = { din := false, iin := false, dout := false, sclk := false, hvrst := true } ∧ s.dir = readyDirs

/-- R28, R29, R176: the session state and `done` as functions of `mpc`, for the values 0 to 17 that runs take. -/
def Obligations.SessionStateAndDone : Prop :=
  ∀ s : State, s.mpc.toNat ≤ 17 →
    (s.mpc.toNat = 0 → sess s = .idle) ∧
    (1 ≤ s.mpc.toNat → s.mpc.toNat ≤ 16 → sess s = .programming) ∧
    (s.mpc.toNat = 17 → sess s = .done) ∧
    (done s = true ↔ s.mpc.toNat = 17)

/-- R25, R26, R27: the bit numbers of the latch and of the direction register, and what each line presents. -/
def Obligations.LatchDirectionsAndPins : Prop :=
  ∀ s : State,
    (outWord s.out).getLsbD 0 = s.out.din ∧ (outWord s.out).getLsbD 1 = s.out.iin ∧
    (outWord s.out).getLsbD 2 = s.out.dout ∧ (outWord s.out).getLsbD 3 = s.out.sclk ∧
    (outWord s.out).getLsbD 4 = s.out.hvrst ∧
    ((dirWord s.dir).getLsbD 0 = true ↔ s.dir.din = .output) ∧ ((dirWord s.dir).getLsbD 1 = true ↔ s.dir.iin = .output) ∧
    ((dirWord s.dir).getLsbD 2 = true ↔ s.dir.dout = .output) ∧
    ((dirWord s.dir).getLsbD 3 = true ↔ s.dir.sclk = .output) ∧
    pin s .hvrst = .level s.out.hvrst ∧
    (s.dir.dout = .input → pin s .dout = .z) ∧ (s.dir.dout = .output → pin s .dout = .level s.out.dout) ∧
    (s.dir.din = .input → pin s .din = .z) ∧ (s.dir.din = .output → pin s .din = .level s.out.din) ∧
    (s.dir.iin = .input → pin s .iin = .z) ∧ (s.dir.iin = .output → pin s .iin = .level s.out.iin) ∧
    (s.dir.sclk = .input → pin s .sclk = .z) ∧ (s.dir.sclk = .output → pin s .sclk = .level s.out.sclk)
end

