-- ==== Sys2Proof/Laws/State.lean ====
section
/-! SUPPORT. One lemma per field per update of the state, so that no later proof unfolds a record update. -/

namespace Sys2Proof.Machine

/-! ## `drive` -/

@[simp] theorem drive_dreg (l : Line) (v : Bool) (s : State) : (drive l v s).dreg = s.dreg := rfl
@[simp] theorem drive_ireg (l : Line) (v : Bool) (s : State) : (drive l v s).ireg = s.ireg := rfl
@[simp] theorem drive_mpc (l : Line) (v : Bool) (s : State) : (drive l v s).mpc = s.mpc := rfl
@[simp] theorem drive_u (l : Line) (v : Bool) (s : State) : (drive l v s).u = s.u := rfl
@[simp] theorem drive_out (l : Line) (v : Bool) (s : State) : (drive l v s).out = s.out.write l v := rfl
@[simp] theorem drive_dir (l : Line) (v : Bool) (s : State) : (drive l v s).dir = s.dir := rfl
@[simp] theorem drive_prog (l : Line) (v : Bool) (s : State) : (drive l v s).prog = s.prog := rfl
@[simp] theorem drive_samples (l : Line) (v : Bool) (s : State) : (drive l v s).samples = s.samples := rfl
@[simp] theorem drive_log (l : Line) (v : Bool) (s : State) : (drive l v s).log = .drive l v :: s.log := rfl

/-! ## `setDir` -/

@[simp] theorem setDir_dreg (l : ConfLine) (d : Direction) (s : State) : (setDir l d s).dreg = s.dreg := rfl
@[simp] theorem setDir_ireg (l : ConfLine) (d : Direction) (s : State) : (setDir l d s).ireg = s.ireg := rfl
@[simp] theorem setDir_mpc (l : ConfLine) (d : Direction) (s : State) : (setDir l d s).mpc = s.mpc := rfl
@[simp] theorem setDir_u (l : ConfLine) (d : Direction) (s : State) : (setDir l d s).u = s.u := rfl
@[simp] theorem setDir_out (l : ConfLine) (d : Direction) (s : State) : (setDir l d s).out = s.out := rfl
@[simp] theorem setDir_dir (l : ConfLine) (d : Direction) (s : State) : (setDir l d s).dir = s.dir.write l d := rfl
@[simp] theorem setDir_prog (l : ConfLine) (d : Direction) (s : State) : (setDir l d s).prog = s.prog := rfl
@[simp] theorem setDir_samples (l : ConfLine) (d : Direction) (s : State) : (setDir l d s).samples = s.samples := rfl
@[simp] theorem setDir_log (l : ConfLine) (d : Direction) (s : State) : (setDir l d s).log = .setDir l d :: s.log := rfl

/-! ## `setDirAllOut` -/

@[simp] theorem setDirAllOut_dreg (s : State) : (setDirAllOut s).dreg = s.dreg := rfl
@[simp] theorem setDirAllOut_ireg (s : State) : (setDirAllOut s).ireg = s.ireg := rfl
@[simp] theorem setDirAllOut_mpc (s : State) : (setDirAllOut s).mpc = s.mpc := rfl
@[simp] theorem setDirAllOut_u (s : State) : (setDirAllOut s).u = s.u := rfl
@[simp] theorem setDirAllOut_out (s : State) : (setDirAllOut s).out = s.out := rfl
@[simp] theorem setDirAllOut_dir (s : State) : (setDirAllOut s).dir = DirReg.allOut := rfl
@[simp] theorem setDirAllOut_prog (s : State) : (setDirAllOut s).prog = s.prog := rfl
@[simp] theorem setDirAllOut_samples (s : State) : (setDirAllOut s).samples = s.samples := rfl
@[simp] theorem setDirAllOut_log (s : State) : (setDirAllOut s).log = .setDirAllOut :: s.log := rfl

/-! ## `sample` -/

@[simp] theorem sample_dreg (s : State) : (sample s).dreg = s.dreg := rfl
@[simp] theorem sample_ireg (s : State) : (sample s).ireg = s.ireg := rfl
@[simp] theorem sample_mpc (s : State) : (sample s).mpc = s.mpc := rfl
@[simp] theorem sample_u (s : State) : (sample s).u = s.u := rfl
@[simp] theorem sample_out (s : State) : (sample s).out = s.out := rfl
@[simp] theorem sample_dir (s : State) : (sample s).dir = s.dir := rfl
@[simp] theorem sample_prog (s : State) : (sample s).prog = s.prog := rfl
@[simp] theorem sample_samples (s : State) : (sample s).samples = s.samples + 1 := rfl
@[simp] theorem sample_log (s : State) : (sample s).log = .sample (answer s) :: s.log := rfl

/-! ## `delay` -/

@[simp] theorem delay_dreg (t : Settle) (s : State) : (delay t s).dreg = s.dreg := rfl
@[simp] theorem delay_ireg (t : Settle) (s : State) : (delay t s).ireg = s.ireg := rfl
@[simp] theorem delay_mpc (t : Settle) (s : State) : (delay t s).mpc = s.mpc := rfl
@[simp] theorem delay_u (t : Settle) (s : State) : (delay t s).u = s.u := rfl
@[simp] theorem delay_out (t : Settle) (s : State) : (delay t s).out = s.out := rfl
@[simp] theorem delay_dir (t : Settle) (s : State) : (delay t s).dir = s.dir := rfl
@[simp] theorem delay_prog (t : Settle) (s : State) : (delay t s).prog = s.prog := rfl
@[simp] theorem delay_samples (t : Settle) (s : State) : (delay t s).samples = s.samples := rfl
@[simp] theorem delay_log (t : Settle) (s : State) : (delay t s).log = .delay t :: s.log := rfl

/-! ## `loadOperands` -/

@[simp] theorem loadOperands_dreg (d i : Byte) (s : State) : (loadOperands d i s).dreg = d := rfl
@[simp] theorem loadOperands_ireg (d i : Byte) (s : State) : (loadOperands d i s).ireg = i := rfl
@[simp] theorem loadOperands_mpc (d i : Byte) (s : State) : (loadOperands d i s).mpc = s.mpc := rfl
@[simp] theorem loadOperands_u (d i : Byte) (s : State) : (loadOperands d i s).u = s.u := rfl
@[simp] theorem loadOperands_out (d i : Byte) (s : State) : (loadOperands d i s).out = s.out := rfl
@[simp] theorem loadOperands_dir (d i : Byte) (s : State) : (loadOperands d i s).dir = s.dir := rfl
@[simp] theorem loadOperands_prog (d i : Byte) (s : State) : (loadOperands d i s).prog = s.prog := rfl
@[simp] theorem loadOperands_samples (d i : Byte) (s : State) : (loadOperands d i s).samples = s.samples := rfl
@[simp] theorem loadOperands_log (d i : Byte) (s : State) : (loadOperands d i s).log = s.log := rfl

/-! ## `nextMicro` -/

@[simp] theorem nextMicro_dreg (s : State) : (nextMicro s).dreg = s.dreg := rfl
@[simp] theorem nextMicro_ireg (s : State) : (nextMicro s).ireg = s.ireg := rfl
@[simp] theorem nextMicro_mpc (s : State) : (nextMicro s).mpc = s.mpc := rfl
@[simp] theorem nextMicro_u (s : State) : (nextMicro s).u = s.u + 1 := rfl
@[simp] theorem nextMicro_out (s : State) : (nextMicro s).out = s.out := rfl
@[simp] theorem nextMicro_dir (s : State) : (nextMicro s).dir = s.dir := rfl
@[simp] theorem nextMicro_prog (s : State) : (nextMicro s).prog = s.prog := rfl
@[simp] theorem nextMicro_samples (s : State) : (nextMicro s).samples = s.samples := rfl
@[simp] theorem nextMicro_log (s : State) : (nextMicro s).log = s.log := rfl

/-! ## `nextWord` -/

@[simp] theorem nextWord_dreg (s : State) : (nextWord s).dreg = s.dreg := rfl
@[simp] theorem nextWord_ireg (s : State) : (nextWord s).ireg = s.ireg := rfl
@[simp] theorem nextWord_mpc (s : State) : (nextWord s).mpc = s.mpc + 1 := rfl
@[simp] theorem nextWord_u (s : State) : (nextWord s).u = 0 := rfl
@[simp] theorem nextWord_out (s : State) : (nextWord s).out = s.out := rfl
@[simp] theorem nextWord_dir (s : State) : (nextWord s).dir = s.dir := rfl
@[simp] theorem nextWord_prog (s : State) : (nextWord s).prog = s.prog := rfl
@[simp] theorem nextWord_samples (s : State) : (nextWord s).samples = s.samples := rfl
@[simp] theorem nextWord_log (s : State) : (nextWord s).log = s.log := rfl

/-! ## `launch` -/

@[simp] theorem launch_dreg (s : State) : (launch s).dreg = s.dreg := rfl
@[simp] theorem launch_ireg (s : State) : (launch s).ireg = s.ireg := rfl
@[simp] theorem launch_mpc (s : State) : (launch s).mpc = s.mpc := rfl
@[simp] theorem launch_u (s : State) : (launch s).u = 0 := rfl
@[simp] theorem launch_out (s : State) :
    (launch s).out = { s.out with din := false, iin := false, sclk := false, hvrst := false } := rfl
@[simp] theorem launch_dir (s : State) : (launch s).dir = readyDirs := rfl
@[simp] theorem launch_prog (s : State) : (launch s).prog = s.prog := rfl
@[simp] theorem launch_samples (s : State) : (launch s).samples = s.samples := rfl
@[simp] theorem launch_log (s : State) : (launch s).log = s.log := rfl

end Sys2Proof.Machine
end

