-- ==== Sys2Proof/Laws/Ops.lean ====
section
/-! SUPPORT. What the operations on lines, registers and program space do: read after write, and that every operation
on program space keeps its form. -/

namespace Sys2Proof.Machine

/-! ## Lines -/

@[simp] theorem Latch.read_write_same (o : Latch) (l : Line) (v : Bool) : (o.write l v).read l = v := by
  cases l <;> rfl

theorem Latch.read_write_other (o : Latch) (l l' : Line) (v : Bool) (h : l' ≠ l) :
    (o.write l v).read l' = o.read l' := by
  cases l <;> cases l' <;> first | rfl | exact absurd rfl h

@[simp] theorem DirReg.read_write_same (r : DirReg) (l : ConfLine) (d : Direction) : (r.write l d).read l = d := by
  cases l <;> rfl

theorem DirReg.read_write_other (r : DirReg) (l l' : ConfLine) (d : Direction) (h : l' ≠ l) :
    (r.write l d).read l' = r.read l' := by
  cases l <;> cases l' <;> first | rfl | exact absurd rfl h

/-- When the three serial lines are outputs. -/
theorem DirReg.serialOut_iff (r : DirReg) :
    r.serialOut = true ↔ r.din = .output ∧ r.iin = .output ∧ r.sclk = .output := by
  simp [DirReg.serialOut, and_assoc]

/-- Entry leaves the three serial lines outputs. -/
@[simp] theorem readyDirs_serialOut : readyDirs.serialOut = true := rfl

/-- Entry leaves data-out an input. -/
@[simp] theorem readyDirs_dout : readyDirs.dout = .input := rfl

/-- The five bits of a latch determine it. -/
theorem Latch.ext_read (o o' : Latch) (h : ∀ l, o.read l = o'.read l) : o = o' := by
  obtain ⟨a, b, c, d, e⟩ := o
  obtain ⟨a', b', c', d', e'⟩ := o'
  simpa [Latch.read] using ⟨h .din, h .iin, h .dout, h .sclk, h .hvrst⟩

/-! ## Counting `u` -/

/-- A micro-step index below 64 is kept by the six bits of `u`. -/
theorem toNat_u (k : Nat) (h : k < 64) : (BitVec.ofNat 6 k).toNat = k := by
  simp only [BitVec.toNat_ofNat]
  omega

/-- `u + 1` does not wrap below 63 (R126(c)). -/
theorem toNat_u_succ (u : BitVec 6) (h : u.toNat < 63) : (u + 1).toNat = u.toNat + 1 := by
  have h1 : (1 : BitVec 6).toNat = 1 := rfl
  rw [BitVec.toNat_add, h1]
  omega

/-- `mpc + 1` does not wrap below 31 (R22, R126(c)). -/
theorem toNat_mpc_succ (m : BitVec 5) (h : m.toNat < 31) : (m + 1).toNat = m.toNat + 1 := by
  have h1 : (1 : BitVec 5).toNat = 1 := rfl
  rw [BitVec.toNat_add, h1]
  omega

/-! ## Program space -/

@[simp] theorem Program.length_place (ws : List ProgWord) (p : List ProgWord) (a : Nat) :
    (Program.place p a ws).length = p.length := by
  induction ws generalizing p a with
  | nil => rfl
  | cons w ws ih => simp [Program.place, ih]

/-- Placing words keeps program space at its 18 words. -/
theorem Program.wf_place (p ws : List ProgWord) (a : Nat) (h : Program.wf p = true) :
    Program.wf (Program.place p a ws) = true := by
  simpa [Program.wf] using h

/-- The program space of the machine after reset has its form. -/
theorem reset_prog_wf : Program.wf State.reset.prog = true := by decide

/-- Placing words leaves every address below them alone. -/
theorem Program.getElem?_place_below (ws p : List ProgWord) (a k : Nat) (h : k < a) :
    (Program.place p a ws)[k]? = p[k]? := by
  induction ws generalizing p a with
  | nil => rfl
  | cons w ws ih => rw [Program.place, ih _ _ (by omega), List.getElem?_set_ne (by omega)]

/-- Words placed inside program space are read back. -/
theorem Program.getElem?_place (ws p : List ProgWord) (a k : Nat) (hk : k < ws.length) (h : a + ws.length ≤ p.length) :
    (Program.place p a ws)[a + k]? = ws[k]? := by
  induction ws generalizing p a k with
  | nil => simp at hk
  | cons w ws ih =>
    simp only [List.length_cons] at hk h
    cases k with
    | zero =>
      rw [Program.place, Nat.add_zero, Program.getElem?_place_below _ _ _ _ (by omega)]
      simp [List.getElem?_set_self (show a < p.length by omega)]
    | succ k =>
      rw [Program.place, show a + (k + 1) = a + 1 + k by omega, ih _ _ _ (by omega) (by simp; omega)]
      simp

/-- A read of program space that answers is of one of its 18 words. -/
theorem Program.read_some (p : List ProgWord) (a : Nat) (w : ProgWord) (h : Program.read p a = some w) :
    a < Config.progSize ∧ p[a]? = some w := by
  unfold Program.read at h
  split at h
  · exact ⟨‹_›, h⟩
  · cases h

/-! ## Power-on reset -/

/-- Power-on reset keeps program space. -/
theorem powerOnReset_wf (s : State) (h : Program.wf s.prog = true) : Program.wf (powerOnReset s).prog = true := h

end Sys2Proof.Machine
end

