-- ==== Sys2Proof/Laws/BitTransfer.lean ====
section
/-! SUPPORT. What a transfer does: the framing function bit by bit, one micro-step, and all forty-two of them. -/

namespace Sys2Proof.Machine

/-! ## The framing function (R91) -/

/-- Slot 0 and the slots after 8 send zero; slot `s` from 1 to 8 sends payload bit `8 - s`. -/
theorem frameBit_eq (b : Byte) (slot : Nat) (h : slot ≤ 10) :
    frameBit b slot = (decide (1 ≤ slot) && (decide (slot ≤ 8) && b.getLsbD (8 - slot))) := by
  interval_cases slot <;> simp [frameBit, w11]

@[simp] theorem frameBit_zero (b : Byte) : frameBit b 0 = false := by simp [frameBit, w11]

@[simp] theorem frameBit_nine (b : Byte) : frameBit b 9 = false := by simp [frameBit, w11]

@[simp] theorem frameBit_ten (b : Byte) : frameBit b 10 = false := by simp [frameBit, w11]

/-! ## One micro-step (R122) -/

/-- The first micro-step loads the operands and drives the data line low. -/
theorem transferMicro_first (d i : Byte) (s : State) (h : s.u.toNat = 0) :
    transferMicro d i s = nextMicro (drive .din false (loadOperands d i s)) := by
  simp only [transferMicro, h, if_true, slotEvent, frameBit_zero]

/-- Phase `p` of slot `j`, after the first micro-step. -/
theorem transferMicro_slot (d i : Byte) (s : State) (j p : Nat) (h : s.u.toNat = 4 * j + p) (hp : p < 4)
    (hj : j < 10) (h0 : 0 < 4 * j + p) : transferMicro d i s = nextMicro (slotEvent j p s) := by
  have h1 : (4 * j + p) / 4 = j := by omega
  have h2 : (4 * j + p) % 4 = p := by omega
  have h3 : 4 * j + p < 40 := by omega
  have h4 : ¬ (4 * j + p = 0) := by omega
  simp only [transferMicro, h, h1, h2, h3, h4, if_true, if_false]

/-- Everything one micro-step of a transfer can do, by the kind of its `u`. -/
theorem transferMicro_cases (d i : Byte) (s : State) (h : s.u.toNat < 42) :
    (s.u.toNat = 0 ∧ transferMicro d i s = nextMicro (drive .din false (loadOperands d i s))) ∨
    (∃ j, 1 ≤ j ∧ j ≤ 9 ∧ s.u.toNat = 4 * j ∧
      transferMicro d i s = nextMicro (drive .din (frameBit s.dreg j) s)) ∨
    (∃ j, j ≤ 9 ∧ s.u.toNat = 4 * j + 1 ∧
      transferMicro d i s = nextMicro (drive .iin (frameBit s.ireg j) s)) ∨
    (∃ j, j ≤ 9 ∧ s.u.toNat = 4 * j + 2 ∧ transferMicro d i s = nextMicro (drive .sclk true s)) ∨
    (∃ j, j ≤ 9 ∧ s.u.toNat = 4 * j + 3 ∧ transferMicro d i s = nextMicro (drive .sclk false s)) ∨
    (s.u.toNat = 40 ∧ transferMicro d i s = nextMicro (drive .sclk true s)) ∨
    (s.u.toNat = 41 ∧ transferMicro d i s = nextWord (drive .sclk false s)) := by
  rcases Nat.lt_or_ge s.u.toNat 40 with hlt | hge
  · obtain ⟨j, p, hp, hu⟩ : ∃ j p, p < 4 ∧ s.u.toNat = 4 * j + p :=
      ⟨s.u.toNat / 4, s.u.toNat % 4, by omega, by omega⟩
    by_cases h0 : s.u.toNat = 0
    · exact .inl ⟨h0, transferMicro_first d i s h0⟩
    · have e := transferMicro_slot d i s j p hu hp (by omega) (by omega)
      refine .inr ?_
      match p, hp with
      | 0, _ => exact .inl ⟨j, by omega, by omega, by omega, e⟩
      | 1, _ => exact .inr (.inl ⟨j, by omega, by omega, e⟩)
      | 2, _ => exact .inr (.inr (.inl ⟨j, by omega, by omega, e⟩))
      | 3, _ => exact .inr (.inr (.inr (.inl ⟨j, by omega, by omega, e⟩)))
  · refine .inr (.inr (.inr (.inr (.inr ?_))))
    rcases (by omega : s.u.toNat = 40 ∨ s.u.toNat = 41) with h40 | h41
    · exact .inl ⟨h40, by simp [transferMicro, h40]⟩
    · exact .inr ⟨h41, by simp [transferMicro, h41]⟩

/-- When a transfer answers a next state, and which. -/
theorem transfer_next_iff (d i : Byte) (s t : State) :
    transfer d i s = .next t ↔
      s.u.toNat < 42 ∧ (s.u.toNat = 0 → s.out.sclk = false ∧ s.dir.serialOut = true) ∧ t = transferMicro d i s := by
  unfold transfer
  split
  · simp; omega
  · split
    · rename_i h
      simp [h]
    · split
      · rename_i h
        simp [h]
      · rename_i h1 h2 h3
        constructor
        · intro h
          cases h
          exact ⟨by omega, fun h0 => ⟨by simpa [h0] using h2, by simpa [h0] using h3⟩, rfl⟩
        · rintro ⟨-, -, rfl⟩
          rfl

/-- A transfer from its first micro-step's conditions answers its micro-step. -/
theorem transfer_next (d i : Byte) (s : State) (hu : s.u.toNat < 42)
    (hc : s.u.toNat = 0 → s.out.sclk = false ∧ s.dir.serialOut = true) :
    transfer d i s = .next (transferMicro d i s) :=
  (transfer_next_iff d i s _).2 ⟨hu, hc, rfl⟩

/-- What no micro-step of a transfer touches (R123(e)). -/
theorem transferMicro_frame (d i : Byte) (s : State) (h : s.u.toNat < 42) :
    (transferMicro d i s).dir = s.dir ∧ (transferMicro d i s).out.dout = s.out.dout ∧
    (transferMicro d i s).out.hvrst = s.out.hvrst ∧ (transferMicro d i s).prog = s.prog ∧
    (transferMicro d i s).samples = s.samples := by
  obtain ⟨-, e⟩ | ⟨j, -, -, -, e⟩ | ⟨j, -, -, e⟩ | ⟨j, -, -, e⟩ | ⟨j, -, -, e⟩ | ⟨-, e⟩ | ⟨-, e⟩ :=
    transferMicro_cases d i s h <;> simp [e, Latch.write]

/-! ## All forty-two (R121) -/

/-- The events of slot `j`, newest first. -/
def slotLog (d i : Byte) (j : Nat) : List Event :=
  [.drive .sclk false, .drive .sclk true, .drive .iin (frameBit i j), .drive .din (frameBit d j)]

/-- The events of the first `k` slots, newest first. -/
def slotsLog (d i : Byte) : Nat → List Event
  | 0 => []
  | k + 1 => slotLog d i k ++ slotsLog d i k

/-- The state of a transfer after `k + 1` of its slots. -/
def afterSlots (d i : Byte) (s : State) (k : Nat) : State :=
  { s with
    dreg := d, ireg := i, u := BitVec.ofNat 6 (4 * (k + 1))
    out := { s.out with din := frameBit d k, iin := frameBit i k, sclk := false }
    log := slotsLog d i (k + 1) ++ s.log }

theorem ofNat_u_succ (k : Nat) : BitVec.ofNat 6 k + 1 = BitVec.ofNat 6 (k + 1) := by simp [BitVec.ofNat_add]

/-- The last three phases of a slot. -/
theorem transferMicro_slot_rest (d i : Byte) (s : State) (j : Nat) (hj : j < 10)
    (hu : s.u = BitVec.ofNat 6 (4 * j + 1)) :
    transferMicro d i (transferMicro d i (transferMicro d i s)) = { s with
      u := BitVec.ofNat 6 (4 * (j + 1))
      out := { s.out with iin := frameBit s.ireg j, sclk := false }
      log := .drive .sclk false :: .drive .sclk true :: .drive .iin (frameBit s.ireg j) :: s.log } := by
  rw [transferMicro_slot d i s j 1 (by rw [hu, toNat_u _ (by omega)]) (by omega) hj (by omega)]
  rw [transferMicro_slot d i (nextMicro (slotEvent j 1 s)) j 2
    (by simp only [nextMicro_u, slotEvent, drive_u, hu, ofNat_u_succ]; rw [toNat_u _ (by omega)])
    (by omega) hj (by omega)]
  rw [transferMicro_slot d i (nextMicro (slotEvent j 2 (nextMicro (slotEvent j 1 s)))) j 3
    (by simp only [nextMicro_u, slotEvent, drive_u, hu, ofNat_u_succ]; rw [toNat_u _ (by omega)])
    (by omega) hj (by omega)]
  simp only [nextMicro, slotEvent, drive, hu, ofNat_u_succ, Latch.write]
  rfl

theorem transferMicro_afterSlots (d i : Byte) (s : State) (h : s.u = 0#6) :
    ∀ k < 10, (transferMicro d i)^[4 * (k + 1)] s = afterSlots d i s k := by
  intro k
  induction k with
  | zero =>
    intro _
    simp only [Function.iterate_succ, Function.iterate_zero, Function.comp_apply, id_eq, Nat.reduceMul, Nat.reduceAdd]
    rw [transferMicro_first d i s (by simp [h])]
    rw [transferMicro_slot_rest d i _ 0 (by omega) (by simp [h])]
    simp [afterSlots, slotsLog, slotLog, nextMicro, drive, loadOperands, Latch.write]
  | succ k ih =>
    intro hk
    rw [show 4 * (k + 1 + 1) = 4 + 4 * (k + 1) by omega, Function.iterate_add_apply, ih (by omega)]
    simp only [Function.iterate_succ, Function.iterate_zero, Function.comp_apply, id_eq]
    rw [transferMicro_slot d i (afterSlots d i s k) (k + 1) 0
      (by simp only [afterSlots]; rw [toNat_u _ (by omega)]; omega) (by omega) hk (by omega)]
    rw [transferMicro_slot_rest d i _ (k + 1) hk
      (by simp only [nextMicro_u, slotEvent, drive_u, afterSlots, ofNat_u_succ])]
    simp [afterSlots, slotsLog, slotLog, nextMicro, slotEvent, drive, Latch.write]

/-- Ten slots and a bare pulse are the events of R121's pseudocode. -/
theorem slotsLog_pulse (d i : Byte) :
    .drive .sclk false :: .drive .sclk true :: slotsLog d i 10 = (transferEvents d i).reverse := by
  simp [slotsLog, slotLog, transferEvents, bitEvents, pulseEvents, frameBit_eq]

/-- A whole transfer (R121, R123(d), R123(e)): the operands are loaded, the three serial lines end low, the program
counter is at the next word, the events are those of the pseudocode, and nothing else has changed. -/
theorem transferRun_eq (d i : Byte) (s : State) (h : s.u = 0#6) :
    transferRun d i s = { s with
      dreg := d, ireg := i, mpc := s.mpc + 1, u := 0#6
      out := { s.out with din := false, iin := false, sclk := false }
      log := (transferEvents d i).reverse ++ s.log } := by
  rw [transferRun, show (42 : Nat) = 2 + 4 * (9 + 1) by rfl, Function.iterate_add_apply,
    transferMicro_afterSlots d i s h 9 (by omega), ← slotsLog_pulse]
  simp [transferMicro, afterSlots, drive, nextMicro, nextWord, Latch.write]

/-- A whole transfer ends at the first micro-step of the next word. -/
theorem transferRun_u (d i : Byte) (s : State) (h : s.u = 0#6) : (transferRun d i s).u = 0#6 := by
  rw [transferRun_eq d i s h]

end Sys2Proof.Machine
end

