-- ==== Sys2Proof/Laws/Decode.lean ====
section
/-! SUPPORT. The fields of a program word and what decoding answers. -/

namespace Sys2Proof

/-- The bits of a packed word, by the layout of R93. -/
theorem getLsbD_packWord (k : BitVec 3) (d i : Byte) (j : Nat) :
    (packWord k d i).getLsbD j =
      if j < 8 then i.getLsbD j else if j < 16 then d.getLsbD (j - 8) else k.getLsbD (j - 16) := by
  unfold packWord
  rw [BitVec.getLsbD_append, BitVec.getLsbD_append]
  split
  · rfl
  · rw [show j - 8 - 8 = j - 16 by omega]
    split <;> split <;> first | rfl | omega

/-- A word is the packing of its three fields. -/
theorem packWord_fields (w : ProgWord) : packWord (kindOf w) (dataOf w) (instrOf w) = w := by
  apply BitVec.eq_of_getLsbD_eq
  intro j hj
  rw [getLsbD_packWord]
  unfold kindOf dataOf instrOf
  interval_cases j <;> simp

/-! The fields of a packed word are what was packed. -/

@[simp] theorem kindOf_packWord (k : BitVec 3) (d i : Byte) : kindOf (packWord k d i) = k := by
  apply BitVec.eq_of_getLsbD_eq
  intro j hj
  unfold kindOf
  rw [BitVec.getLsbD_extractLsb', getLsbD_packWord]
  interval_cases j <;> simp

@[simp] theorem dataOf_packWord (k : BitVec 3) (d i : Byte) : dataOf (packWord k d i) = d := by
  apply BitVec.eq_of_getLsbD_eq
  intro j hj
  unfold dataOf
  rw [BitVec.getLsbD_extractLsb', getLsbD_packWord]
  interval_cases j <;> simp

@[simp] theorem instrOf_packWord (k : BitVec 3) (d i : Byte) : instrOf (packWord k d i) = i := by
  apply BitVec.eq_of_getLsbD_eq
  intro j hj
  unfold instrOf
  rw [BitVec.getLsbD_extractLsb', getLsbD_packWord]
  interval_cases j <;> simp
/-- A word of kind 1 to 4 that decodes has operand bits zero and is its instruction's word. -/
theorem decodePlain_ok (w : ProgWord) (j i : Instr) (h : decodePlain w j = .ok i) :
    w = packWord (kindOf w) 0#8 0#8 ∧ i = j := by
  unfold decodePlain at h
  split at h
  · rename_i hz
    cases h
    refine ⟨?_, rfl⟩
    conv_lhs => rw [← packWord_fields w, hz.1, hz.2]
  · cases h

open Machine in
/-- Everything decoding can answer (R103): a transfer under the name of its pair, or one of the four instructions
without operands; never a macro. -/
theorem decodeWord_ok (w : ProgWord) (i : Instr) (h : decodeWord w = .ok i) :
    (∃ d e, w = xferWord d e ∧ operandPair i = some (d, e)) ∨ (w = pollWord ∧ i = .poll) ∨
    (w = enterWord ∧ i = .enter) ∨ (w = exitWord ∧ i = .exit) ∨ (w = haltWord ∧ i = .halt) := by
  unfold decodeWord at h
  split at h
  · rename_i hk
    refine .inl ⟨dataOf w, instrOf w, ?_, ?_⟩
    · rw [xferWord, ← hk, packWord_fields]
    · simp only [Except.ok.injEq] at h
      subst h
      unfold Instr.named
      split_ifs <;> simp_all [operandPair]
  · repeat' split at h
    · rename_i hk
      obtain ⟨e, rfl⟩ := decodePlain_ok _ _ _ h
      exact .inr (.inl ⟨by rw [e, hk]; rfl, rfl⟩)
    · rename_i hk
      obtain ⟨e, rfl⟩ := decodePlain_ok _ _ _ h
      exact .inr (.inr (.inl ⟨by rw [e, hk]; rfl, rfl⟩))
    · rename_i hk
      obtain ⟨e, rfl⟩ := decodePlain_ok _ _ _ h
      exact .inr (.inr (.inr (.inl ⟨by rw [e, hk]; rfl, rfl⟩)))
    · rename_i hk
      obtain ⟨e, rfl⟩ := decodePlain_ok _ _ _ h
      exact .inr (.inr (.inr (.inr ⟨by rw [e, hk]; rfl, rfl⟩)))
    · cases h

end Sys2Proof
end

