-- ==== Sys2Proof/Laws/FuseWrite.lean ====
section
/-! SUPPORT. What a poll and a fuse write do. -/

namespace Sys2Proof.Machine

/-- Everything one sample of a wait can do (R150). -/
theorem pollMicro_cases (s : State) :
    (answer s = true ∧ pollMicro s = nextWord (sample s)) ∨ (answer s = false ∧ pollMicro s = sample s) := by
  unfold pollMicro
  cases answer s <;> simp

/-- What a sample does not touch (R151(d)). -/
theorem pollMicro_frame (s : State) :
    (pollMicro s).dreg = s.dreg ∧ (pollMicro s).ireg = s.ireg ∧ (pollMicro s).out = s.out ∧
    (pollMicro s).dir = s.dir ∧ (pollMicro s).prog = s.prog ∧ (pollMicro s).samples = s.samples + 1 ∧
    (pollMicro s).log = .sample (answer s) :: s.log := by
  obtain ⟨-, e⟩ | ⟨-, e⟩ := pollMicro_cases s <;> simp [e]

/-- When `POLL` answers a next state, and which. -/
theorem execPoll_next_iff (s t : State) :
    execPoll s = .next t ↔
      s.u.toNat = 0 ∧ s.dir.dout = .input ∧ s.dir.serialOut = true ∧ t = pollMicro s := by
  unfold execPoll
  split
  · simp_all
  · split
    · simp_all
    · split
      · simp_all
      · rename_i h1 h2 h3
        have h2' : s.dir.dout = .input := by cases h : s.dir.dout <;> simp_all
        simp only [not_not, Bool.not_eq_false] at h1 h3
        constructor
        · intro h
          cases h
          exact ⟨h1, h2', h3, rfl⟩
        · rintro ⟨-, -, -, rfl⟩
          rfl

/-- The four transfers of a fuse write (R152): the operands of the last one stay, the lines end low, the program counter
is at the wait. -/
theorem fuseTransfers_eq (f : Fuse) (v : Byte) (s : State) (h : s.u = 0#6) :
    fuseTransfers f v s = { s with
      dreg := 0x00#8, ireg := fuseStrobe f, mpc := s.mpc + 4, u := 0#6
      out := { s.out with din := false, iin := false, sclk := false }
      log := (fuseEvents f v).reverse ++ s.log } := by
  have hm : s.mpc + 1 + 1 + 1 + 1 = s.mpc + 4 := by
    simp only [BitVec.add_assoc]
    rfl
  unfold fuseTransfers
  rw [transferRun_eq _ _ s h, transferRun_eq, transferRun_eq, transferRun_eq]
  · simp only [fuseEvents, fuseCalls, List.flatMap_cons, List.flatMap_nil, List.append_nil, List.reverse_append,
      List.append_assoc, hm]
  · rfl
  · exact transferRun_u _ _ _ rfl
  · exact transferRun_u _ _ _ (transferRun_u _ _ _ rfl)

/-- When a fuse write answers a next state, and which. -/
theorem fuseWrite_next_iff (f : Fuse) (v : Byte) (s t : State) :
    fuseWrite f v s = .next t ↔
      s.u.toNat = 0 ∧ s.out.sclk = false ∧ s.dir.dout = .input ∧ s.dir.serialOut = true ∧
      t = pollMicro (fuseTransfers f v s) := by
  unfold fuseWrite
  split
  · simp_all
  · split
    · simp_all
    · split
      · simp_all
      · split
        · simp_all
        · rename_i h1 h2 h3 h4
          have h3' : s.dir.dout = .input := by cases h : s.dir.dout <;> simp_all
          simp only [not_not, Bool.not_eq_true, Bool.not_eq_false] at h1 h2 h4
          constructor
          · intro h
            cases h
            exact ⟨h1, h2, h3', h4, rfl⟩
          · rintro ⟨-, -, -, -, rfl⟩
            rfl

end Sys2Proof.Machine
end

