-- ==== Sys2Proof/Laws/PerInstr.lean ====
section
/-! SUPPORT. A statement for every instruction: the encoder emits no reserved word (R94, R99). -/

namespace Sys2Proof.Laws.EveryWordDecodes

/-- Every word of the encoding of an instruction is an instruction of its own. -/
def Statement (i : Instr) : Prop := ∀ w ∈ encode i, ∃ j, decodeWord w = .ok j

/-- The word of a transfer decodes, whatever its operands. -/
theorem xferWord_ok (d e : Byte) : ∃ j, decodeWord (xferWord d e) = .ok j :=
  ⟨(Instr.named d e).getD (.xfer d e), by simp [decodeWord, xferWord]⟩

/-- The word of `POLL` decodes. -/
theorem pollWord_ok : ∃ j, decodeWord pollWord = .ok j := ⟨.poll, rfl⟩

/-- Every word of a fuse write decodes. -/
theorem fuseWords_ok (f : Fuse) (v : Byte) : ∀ w ∈ fuseWords f v, ∃ j, decodeWord w = .ok j := by
  simp [fuseWords, fuseCalls, xferWord_ok, pollWord_ok]

theorem xfer (d i : Byte) : Statement (.xfer d i) := by simp [Statement, encode, xferWord_ok]
theorem ldcmd : Statement .ldcmd := by simp [Statement, encode, xferWord_ok]
theorem lddata (v : Byte) : Statement (.lddata v) := by simp [Statement, encode, xferWord_ok]
theorem sell : Statement .sell := by simp [Statement, encode, xferWord_ok]
theorem selh : Statement .selh := by simp [Statement, encode, xferWord_ok]
theorem sele : Statement .sele := by simp [Statement, encode, xferWord_ok]
theorem wrl : Statement .wrl := by simp [Statement, encode, xferWord_ok]
theorem wrh : Statement .wrh := by simp [Statement, encode, xferWord_ok]
theorem wre : Statement .wre := by simp [Statement, encode, xferWord_ok]
theorem poll : Statement .poll := by simp [Statement, encode, pollWord_ok]
theorem enter : Statement .enter := by
  intro w hw
  simp only [encode, List.mem_singleton] at hw
  exact ⟨.enter, by rw [hw]; rfl⟩
theorem exit : Statement .exit := by
  intro w hw
  simp only [encode, List.mem_singleton] at hw
  exact ⟨.exit, by rw [hw]; rfl⟩
theorem halt : Statement .halt := by
  intro w hw
  simp only [encode, List.mem_singleton] at hw
  exact ⟨.halt, by rw [hw]; rfl⟩
theorem wfuseL (v : Byte) : Statement (.wfuseL v) := fuseWords_ok .low v
theorem wfuseH (v : Byte) : Statement (.wfuseH v) := fuseWords_ok .high v
theorem wfuseE (v : Byte) : Statement (.wfuseE v) := fuseWords_ok .ext v
theorem session : Statement .session := by
  intro w hw
  simp only [encode, sessionWords, List.mem_append, List.mem_cons, List.not_mem_nil, or_false] at hw
  rcases hw with (((rfl | h) | h) | h) | rfl | rfl
  · exact ⟨.enter, rfl⟩
  · exact fuseWords_ok _ _ _ h
  · exact fuseWords_ok _ _ _ h
  · exact fuseWords_ok _ _ _ h
  · exact ⟨.exit, rfl⟩
  · exact ⟨.halt, rfl⟩

end Sys2Proof.Laws.EveryWordDecodes
end

