-- ==== Sys2Proof/Laws/Session.lean ====
section
/-! SUPPORT. What entry, exit, the terminal state and a session do. -/

namespace Sys2Proof.Machine

/-- Everything one micro-step of `ENTER` can do (R170). -/
theorem enterMicro_cases (s : State) (h : s.u.toNat < 9) :
    (s.u.toNat = 0 ∧ enterMicro s = nextMicro (setDirAllOut s)) ∨
    (s.u.toNat = 1 ∧ enterMicro s = nextMicro (drive .din false s)) ∨
    (s.u.toNat = 2 ∧ enterMicro s = nextMicro (drive .iin false s)) ∨
    (s.u.toNat = 3 ∧ enterMicro s = nextMicro (drive .dout false s)) ∨
    (s.u.toNat = 4 ∧ enterMicro s = nextMicro (drive .hvrst true s)) ∨
    (s.u.toNat = 5 ∧ enterMicro s = nextMicro (drive .hvrst false s)) ∨
    (s.u.toNat = 6 ∧ enterMicro s = nextMicro (delay .tSettle1 s)) ∨
    (s.u.toNat = 7 ∧ enterMicro s = nextMicro (setDir .dout .input s)) ∨
    (s.u.toNat = 8 ∧ enterMicro s = nextWord (delay .tSettle2 s)) := by
  unfold enterMicro
  generalize s.u.toNat = k at h
  interval_cases k <;> simp

/-- When `ENTER` answers a next state, and which. -/
theorem execEnter_next_iff (s t : State) :
    execEnter s = .next t ↔ s.u.toNat < 9 ∧ t = enterMicro s := by
  unfold execEnter
  split
  · simp; omega
  · simp only [Host.Outcome.next.injEq]
    exact ⟨fun h => ⟨by omega, h.symm⟩, fun h => h.2.symm⟩

/-- When `EXIT` answers a next state, and which. -/
theorem execExit_next_iff (s t : State) :
    execExit s = .next t ↔ s.u.toNat = 0 ∧ t = exitMicro s := by
  unfold execExit
  split
  · simp_all
  · rename_i h
    simp only [Host.Outcome.next.injEq]
    exact ⟨fun e => ⟨not_not.1 h, e.symm⟩, fun e => e.2.symm⟩

/-- A whole entry (R170): the four lines are configured, data, instruction and data-out are low, the high voltage is
asserted, the clock's latch is not written, and the program counter is at the next word. -/
theorem enterRun_eq (s : State) (h : s.u = 0#6) :
    enterRun s = { s with
      mpc := s.mpc + 1, u := 0#6
      out := { s.out with din := false, iin := false, dout := false, hvrst := false }
      dir := { din := .output, iin := .output, dout := .input, sclk := .output }
      log := enterEvents.reverse ++ s.log } := by
  obtain ⟨dr, ir, m, u, o, d, p, n, l⟩ := s
  subst h
  simp [enterRun, enterMicro, nextMicro, nextWord, setDirAllOut, setDir, drive, delay, Latch.write, DirReg.write,
    DirReg.allOut, enterEvents]

/-- A wait whose first sample is low stands at its `POLL`. -/
theorem waitThen_low (k : State → State) (s : State) (h : answer s = false) : waitThen k s = sample s := by
  simp [waitThen, pollMicro, h]

/-- A wait whose first sample is high goes on from the next word. -/
theorem waitThen_high (k : State → State) (s : State) (h : answer s = true) :
    waitThen k s = k (nextWord (sample s)) := by
  simp [waitThen, pollMicro, h]

/-- The four transfers of a fuse write, the first sample of its wait, and `k` if it was high (R152, R150). -/
theorem fuseWait_eq (f : Fuse) (v : Byte) (k : State → State) (s : State) (h : s.u = 0#6) :
    waitThen k (fuseTransfers f v s) =
      if Config.doutLevel s.samples = true then
        k { s with
          dreg := 0x00#8, ireg := fuseStrobe f, mpc := s.mpc + 5, u := 0#6, samples := s.samples + 1
          out := { s.out with din := false, iin := false, sclk := false }
          log := .sample true :: ((fuseEvents f v).reverse ++ s.log) }
      else { s with
        dreg := 0x00#8, ireg := fuseStrobe f, mpc := s.mpc + 4, u := 0#6, samples := s.samples + 1
        out := { s.out with din := false, iin := false, sclk := false }
        log := .sample false :: ((fuseEvents f v).reverse ++ s.log) } := by
  have hm : s.mpc + 4 + 1 = s.mpc + 5 := by rw [BitVec.add_assoc]; rfl
  rw [fuseTransfers_eq f v s h]
  cases ha : Config.doutLevel s.samples
  · rw [waitThen_low _ _ (by exact ha), if_neg (by simp)]
    simp only [sample, answer, ha]
  · rw [waitThen_high _ _ (by exact ha), if_pos rfl]
    simp only [sample, answer, ha, nextWord, hm]
    rfl
/-- Everything a session can do up to its first low sample or `HALT` (R173). -/
theorem sessionRun_eq (s : State) (hu : s.u = 0#6) : sessionRun s = { s with
      dreg := 0x00#8
      ireg := if Config.doutLevel s.samples = true then
          if Config.doutLevel (s.samples + 1) = true then 0x6E#8 else 0x7C#8
        else 0x6C#8
      mpc := if Config.doutLevel s.samples = true then
          if Config.doutLevel (s.samples + 1) = true then
            if Config.doutLevel (s.samples + 2) = true then s.mpc + 17 else s.mpc + 15
          else s.mpc + 10
        else s.mpc + 5
      out := { din := false, iin := false, dout := false, sclk := false,
               hvrst := Config.doutLevel s.samples && Config.doutLevel (s.samples + 1)
                 && Config.doutLevel (s.samples + 2) }
      dir := { din := .output, iin := .output, dout := .input, sclk := .output }
      samples := if Config.doutLevel s.samples = true then
          if Config.doutLevel (s.samples + 1) = true then s.samples + 3 else s.samples + 2
        else s.samples + 1
      log := (sessionEvents (Config.doutLevel s.samples) (Config.doutLevel (s.samples + 1))
        (Config.doutLevel (s.samples + 2))).reverse ++ s.log } := by
  have ha : ∀ (m a b : BitVec 5), m + a + b = m + (a + b) := BitVec.add_assoc
  obtain ⟨dr, ir, m, u, o, d, p, n, l⟩ := s
  subst hu
  unfold sessionRun
  rw [enterRun_eq _ rfl, fuseWait_eq]
  · dsimp only
    rw [fuseWait_eq _ _ _ _ rfl, fuseWait_eq _ _ _ _ rfl]
    dsimp only [exitMicro, nextWord, drive, Latch.write]
    generalize Config.doutLevel n = b₁
    generalize Config.doutLevel (n + 1) = b₂
    rw [show n + 1 + 1 = n + 2 from rfl]
    generalize Config.doutLevel (n + 2) = b₃
    cases b₁ <;> cases b₂ <;> cases b₃ <;> simp [sessionEvents, fuseStrobe, fuseValue, ha]
  · rfl

/-- When `SESSION` answers a next state, and which. -/
theorem execSession_next_iff (s t : State) :
    execSession s = .next t ↔ s.u.toNat = 0 ∧ s.out.sclk = false ∧ t = sessionRun s := by
  unfold execSession
  split
  · simp_all
  · split
    · simp_all
    · rename_i h1 h2
      simp only [not_not, Bool.not_eq_true] at h1 h2
      simp only [Host.Outcome.next.injEq]
      exact ⟨fun h => ⟨h1, h2, h.symm⟩, fun h => h.2.2.symm⟩

end Sys2Proof.Machine
end

