-- ==== Sys2Proof/Laws/Step.lean ====
section
/-! SUPPORT. What a step can do, and how runs of steps compose. -/

namespace Sys2Proof.Machine

/-- A step that answers a next state fetched a word, decoded it and ran the instruction. -/
theorem step_next_iff (s t : State) :
    step s = .next t ↔ ∃ w i, fetch s = some w ∧ decodeWord w = .ok i ∧ exec i s = .next t := by
  unfold step
  cases hf : fetch s with
  | none => simp
  | some w =>
    cases hd : decodeWord w with
    | error e => simp [hd]
    | ok i => simp [hd]

/-- The meaning of a transfer instruction, whatever its name, is the transfer of its operand pair (R94, R102). -/
theorem exec_transfer (i : Instr) (d e : Byte) (h : operandPair i = some (d, e)) (s : State) :
    exec i s = transfer d e s := by
  cases i <;> simp only [operandPair, Option.some.injEq, Prod.mk.injEq, reduceCtorEq] at h <;>
    obtain ⟨rfl, rfl⟩ := h <;> rfl

/-- The meaning of a fuse write, whatever its type. -/
theorem exec_fuseWrite (i : Instr) (f : Fuse) (v : Byte) (h : fuseOperand i = some (f, v)) (s : State) :
    exec i s = fuseWrite f v s := by
  cases i <;> simp only [fuseOperand, Option.some.injEq, Prod.mk.injEq, reduceCtorEq] at h <;>
    obtain ⟨rfl, rfl⟩ := h <;> rfl

/-- Everything a step can do, by the word at `mpc`. -/
theorem step_cases (s t : State) (h : step s = .next t) :
    (∃ d e, fetch s = some (xferWord d e) ∧ s.u.toNat < 42 ∧
      (s.u.toNat = 0 → s.out.sclk = false ∧ s.dir.serialOut = true) ∧ t = transferMicro d e s) ∨
    (fetch s = some pollWord ∧ s.u.toNat = 0 ∧ s.dir.dout = .input ∧ s.dir.serialOut = true ∧ t = pollMicro s) ∨
    (fetch s = some enterWord ∧ s.u.toNat < 9 ∧ t = enterMicro s) ∨
    (fetch s = some exitWord ∧ s.u.toNat = 0 ∧ t = exitMicro s) ∨
    (fetch s = some haltWord ∧ t = s) := by
  obtain ⟨w, i, hf, hd, he⟩ := (step_next_iff s t).1 h
  rcases decodeWord_ok w i hd with ⟨d, e, rfl, hp⟩ | ⟨rfl, rfl⟩ | ⟨rfl, rfl⟩ | ⟨rfl, rfl⟩ | ⟨rfl, rfl⟩
  · rw [exec_transfer i d e hp, transfer_next_iff] at he
    exact .inl ⟨d, e, hf, he⟩
  · exact .inr (.inl ⟨hf, (execPoll_next_iff s t).1 he⟩)
  · exact .inr (.inr (.inl ⟨hf, (execEnter_next_iff s t).1 he⟩))
  · exact .inr (.inr (.inr (.inl ⟨hf, (execExit_next_iff s t).1 he⟩)))
  · refine .inr (.inr (.inr (.inr ⟨hf, ?_⟩)))
    change Host.Outcome.next s = .next t at he
    cases he
    rfl

/-! ## Runs -/

/-- A run of `m + n` steps is a run of `m`, then one of `n`. -/
theorem stepN_add (m n : Nat) (s t : State) (h : stepN m s = .next t) : stepN (m + n) s = stepN n t := by
  induction m generalizing s with
  | zero =>
    cases h
    rw [Nat.zero_add]
  | succ m ih =>
    rw [show m + 1 + n = m + n + 1 by omega]
    simp only [stepN] at h ⊢
    cases hs : step s with
    | next t' =>
      rw [hs] at h
      exact ih _ h
    | fault r => exact r.rec
    | refused r =>
      rw [hs] at h
      cases h

/-- A run of the model's steps is the host's run of the machine. -/
theorem stepN_eq_run (n : Nat) (s : State) : stepN n s = Host.Core.run Sys2Proof.core n s := by
  induction n generalizing s with
  | zero => rfl
  | succ n ih =>
    have e : Host.Core.step Sys2Proof.core s = step s := rfl
    simp only [stepN, Host.Core.run]
    rw [e]
    cases hs : step s with
    | next t => exact ih t
    | fault r => exact r.rec
    | refused r => rfl

end Sys2Proof.Machine
end

