-- ==== Sys2Proof/Machine/Target.lean ====
section
/-! DEFINITION. The reference target of R80, not normative: a runner's deterministic environment, the spec's own, which
says nothing about a real chip and stays out of claims (D26). No step reads it. Log entry 14. -/

namespace Sys2Proof.Machine

/-- The reference target's state (R80). -/
structure Target where
  /-- The 11-slot shift register of the data line, the latest slot in bit 0. -/
  shiftD : BitVec 11
  /-- The 11-slot shift register of the instruction line. -/
  shiftI : BitVec 11
  /-- Slots received of the frame in progress. -/
  count : Nat
  /-- Whether `cmd` is write-fuse. -/
  writeFuse : Bool
  data : Byte
  sel : Option Fuse
  low : Byte
  high : Byte
  ext : Byte
  /-- Samples still to be answered `0`. -/
  busy : Nat
  /-- How many busy counts have been drawn: the index of the next draw. -/
  strobes : Nat
deriving DecidableEq, Repr

/-- A write to the fuse byte of a type. -/
def setFuse (t : Target) (f : Fuse) (b : Byte) : Target :=
  match f with
  | .low => { t with low := b }
  | .high => { t with high := b }
  | .ext => { t with ext := b }

/-- The write strobe of a fuse type: it acts when that type is selected and the command is write-fuse, and draws a busy
count of its own (R80). -/
def strobe (draw : Nat → Nat) (f : Fuse) (t : Target) : Target :=
  if t.sel = some f ∧ t.writeFuse = true then
    { setFuse t f t.data with busy := draw t.strobes, strobes := t.strobes + 1 }
  else t

/-- A whole frame `(D, I)` received; any pair R80 does not list is ignored. -/
def onFrame (draw : Nat → Nat) (d i : Byte) (t : Target) : Target :=
  if d = 0x40#8 ∧ i = 0x4C#8 then { t with writeFuse := true }
  else if i = 0x2C#8 then { t with data := d }
  else if d = 0x00#8 ∧ i = fuseSelect .low then { t with sel := some .low }
  else if d = 0x00#8 ∧ i = fuseSelect .high then { t with sel := some .high }
  else if d = 0x00#8 ∧ i = fuseSelect .ext then { t with sel := some .ext }
  else if d = 0x00#8 ∧ i = fuseStrobe .low then strobe draw .low t
  else if d = 0x00#8 ∧ i = fuseStrobe .high then strobe draw .high t
  else if d = 0x00#8 ∧ i = fuseStrobe .ext then strobe draw .ext t
  else t

/-- One rising edge: the levels are shifted in, and the eleventh completes a frame. -/
def onEdge (draw : Nat → Nat) (d i : Bool) (t : Target) : Target :=
  let t' := { t with
    shiftD := (t.shiftD <<< 1) ||| (BitVec.ofBool d).zeroExtend 11
    shiftI := (t.shiftI <<< 1) ||| (BitVec.ofBool i).zeroExtend 11
    count := t.count + 1 }
  if t'.count = 11 then onFrame draw (t'.shiftD.extractLsb' 2 8) (t'.shiftI.extractLsb' 2 8) { t' with count := 0 } else t'

/-- The reference target's answer to a sample (R80). -/
def targetAnswer (t : Target) : Bool := t.busy == 0

/-- The reference target through one event, given the lines before it; `draw k` is the busy count drawn at the
`k`-th write strobe. -/
def targetAfter (draw : Nat → Nat) (w : Wires) (t : Target) (e : Event) : Target :=
  match e with
  | .drive _ _ =>
    if isRising w e && !w.out.hvrst then onEdge draw w.out.din w.out.iin t else t
  | .sample _ => { t with busy := t.busy - 1 }
  | .setDir _ _ => t
  | .setDirAllOut => t
  | .delay _ => t

/-- The reference target after a trace. -/
def targetRun (draw : Nat → Nat) (w : Wires) (t : Target) : List Event → Target
  | [] => t
  | e :: es => targetRun draw (wiresAfter w e) (targetAfter draw w t e) es

/-- Whether every sample of a trace is answered as the reference target answers it. -/
def targetAdmits (draw : Nat → Nat) (w : Wires) (t : Target) : List Event → Bool
  | [] => true
  | e :: es =>
    (match e with
      | .sample b => b == targetAnswer t
      | .drive _ _ => true
      | .setDir _ _ => true
      | .setDirAllOut => true
      | .delay _ => true)
    && targetAdmits draw (wiresAfter w e) (targetAfter draw w t e) es

end Sys2Proof.Machine
end

