-- ==== Sys2Proof/Tests/Slice0.lean ====
section
/-! SUPPORT. Tests: well-formedness, decoding, one step per instruction, and for every statement with hypotheses a
state and operands that meet them. Expected results are those of `95_test_vectors.md`, cited by its section. -/

namespace Sys2Proof.Tests

open Sys2Proof Sys2Proof.Machine

/-! ## Small states -/

/-- The state after entry: `CoreReady` of R177 at word `m`, micro-step `k`. -/
def readyAt (m : BitVec 5) (k : BitVec 6) : State :=
  { State.reset with
    mpc := m
    u := k
    out := { din := false, iin := false, dout := false, sclk := false, hvrst := false }
    dir := readyDirs }

/-- The same with the clock high. -/
def clockHigh (m : BitVec 5) (k : BitVec 6) : State :=
  { readyAt m k with out := { din := false, iin := false, dout := false, sclk := true, hvrst := false } }

/-- The same with data-out driven by the engine. -/
def doutDriven (m : BitVec 5) : State := { readyAt m 0 with dir := DirReg.allOut }

/-- The lines as before `ENTER`: no line is an output. -/
def beforeEntry (m : BitVec 5) : State := { State.reset with mpc := m }

/-- The same with another word at `m`. -/
def withWord (m : BitVec 5) (k : BitVec 6) (w : ProgWord) : State :=
  { readyAt m k with prog := fixedProgram.set m.toNat w }

/-- The answer's next state, if it is one. -/
def nextOf : Host.Outcome State Fault Refusal → Option State
  | .next t => some t
  | .fault _ => none
  | .refused _ => none

/-- The newest event, the counter and the operand registers of a next state. -/
def lastEvent (o : Host.Outcome State Fault Refusal) : Option (Event × Nat × Nat × Byte × Byte) :=
  (nextOf o).bind (fun t => t.log.head?.map (fun e => (e, t.mpc.toNat, t.u.toNat, t.dreg, t.ireg)))

/-! ## Well-formedness: a pair that has a name is refused as a raw `XFER` (R96) -/

theorem test_ldcmd_pair_ill_formed : (Instr.xfer 0x40#8 0x4C#8).wellFormed = false := by decide
theorem test_lddata_pair_ill_formed : (Instr.xfer 0x62#8 0x2C#8).wellFormed = false := by decide
theorem test_sell_pair_ill_formed : (Instr.xfer 0x00#8 0x64#8).wellFormed = false := by decide
theorem test_selh_pair_ill_formed : (Instr.xfer 0x00#8 0x74#8).wellFormed = false := by decide
theorem test_sele_pair_ill_formed : (Instr.xfer 0x00#8 0x66#8).wellFormed = false := by decide
theorem test_wrl_pair_ill_formed : (Instr.xfer 0x00#8 0x6C#8).wellFormed = false := by decide
theorem test_wrh_pair_ill_formed : (Instr.xfer 0x00#8 0x7C#8).wellFormed = false := by decide
theorem test_wre_pair_ill_formed : (Instr.xfer 0x00#8 0x6E#8).wellFormed = false := by decide
theorem test_unnamed_pair_well_formed : (Instr.xfer 0x00#8 0x4C#8).wellFormed = true := by decide

/-! ## Decoding: words written bit by bit as `K D I` (2.7, R94, R96) -/

theorem test_decode_xfer : decodeWord 0b0001010101001010101#19 = .ok (.xfer 0xAA#8 0x55#8) := by rfl
theorem test_decode_ldcmd : decodeWord 0b0000100000001001100#19 = .ok .ldcmd := by rfl
theorem test_decode_lddata : decodeWord 0b0000110001000101100#19 = .ok (.lddata 0x62#8) := by rfl
theorem test_decode_sell : decodeWord 0b0000000000001100100#19 = .ok .sell := by rfl
theorem test_decode_selh : decodeWord 0b0000000000001110100#19 = .ok .selh := by rfl
theorem test_decode_sele : decodeWord 0b0000000000001100110#19 = .ok .sele := by rfl
theorem test_decode_wrl : decodeWord 0b0000000000001101100#19 = .ok .wrl := by rfl
theorem test_decode_wrh : decodeWord 0b0000000000001111100#19 = .ok .wrh := by rfl
theorem test_decode_wre : decodeWord 0b0000000000001101110#19 = .ok .wre := by rfl
theorem test_decode_poll : decodeWord 0b0010000000000000000#19 = .ok .poll := by rfl
theorem test_decode_enter : decodeWord 0b0100000000000000000#19 = .ok .enter := by rfl
theorem test_decode_exit : decodeWord 0b0110000000000000000#19 = .ok .exit := by rfl
theorem test_decode_halt : decodeWord 0b1000000000000000000#19 = .ok .halt := by rfl
theorem test_decode_poll_operand : decodeWord 0b0010000000000000001#19 = .error (.reservedOperand 1#3) := by rfl
theorem test_decode_halt_operand : decodeWord 0b1001111111100000000#19 = .error (.reservedOperand 4#3) := by rfl
theorem test_decode_kind_five : decodeWord 0b1010000000000000000#19 = .error (.reservedKind 5#3) := by rfl

/-- The row of `WFUSE.L` with `v = 0x62`, first word leftmost as the table writes it. -/
theorem test_decode_wfuseL : decodeTableWord 96
    0b00001000000010011000000110001000101100000000000000110010000000000000011011000010000000000000000
    = some (.wfuseL 0x62#8) := by decide +kernel

/-- The row of `WFUSE.H` with `v = 0xDF`. -/
theorem test_decode_wfuseH : decodeTableWord 96
    0b00001000000010011000001101111100101100000000000000111010000000000000011111000010000000000000000
    = some (.wfuseH 0xDF#8) := by decide +kernel

/-- The row of `WFUSE.E` with `v = 0xFF`. -/
theorem test_decode_wfuseE : decodeTableWord 96
    0b00001000000010011000001111111100101100000000000000110011000000000000011011100010000000000000000
    = some (.wfuseE 0xFF#8) := by decide +kernel

/-- The row of `SESSION`. -/
theorem test_decode_session : decodeTableWord 344
    0b010000000000000000000001000000010011000000110001000101100000000000000110010000000000000011011000010000000000000000000010000000100110000011011111001011000000000000001110100000000000000111110000100000000000000000000100000001001100000111111110010110000000000000011001100000000000001101110001000000000000000001100000000000000001000000000000000000
    = some .session := by decide +kernel

/-- The same five words of `WFUSE.L 0x62` with the first word at the least significant end (log entry 7). -/
theorem test_decode_wfuseL_low_first : decodeTableWord 96
    (0x0404C + 0x0622C * 2 ^ 19 + 0x00064 * 2 ^ 38 + 0x0006C * 2 ^ 57 + 0x10000 * 2 ^ 76)
    = some (.wfuseL 0x62#8) := by decide +kernel

/-- A bit above the row's word is no instruction. -/
theorem test_decode_high_bit : decodeTableWord 24 (0x0404C + 2 ^ 19) = none := by decide +kernel

/-- The first step after reset runs the placed word (log entry 1). -/
theorem test_placed_halt : nextOf (step (State.reset.withFetchWord 24 0x40000)) =
    some (State.reset.withFetchWord 24 0x40000) := by decide +kernel

/-- A placed transfer runs as the first step after reset, from the lines of the launch premise (log entry 1). -/
theorem test_placed_ldcmd : lastEvent (step (State.reset.withFetchWord 24 0x0404C)) =
    some (.drive .din false, 0, 1, 0x40#8, 0x4C#8) := by decide +kernel

/-- A placed fuse write starts with its first transfer, `LDCMD`. -/
theorem test_placed_wfuseE : lastEvent (step (State.reset.withFetchWord 96
    (0x0404C + 0x0FF2C * 2 ^ 19 + 0x00066 * 2 ^ 38 + 0x0006E * 2 ^ 57 + 0x10000 * 2 ^ 76))) =
    some (.drive .din false, 0, 1, 0x40#8, 0x4C#8) := by decide +kernel

/-! ## Steps -/

/-- 2.2, `u = 0`: `DIN = 0`, operands loaded. -/
theorem test_ldcmd_first : lastEvent (exec .ldcmd (readyAt 1 0)) = some (.drive .din false, 1, 1, 0x40#8, 0x4C#8) := by
  decide

/-- 2.2, `u = 8`: the first `1` on the data line, bit 6 of `0x40`. -/
theorem test_ldcmd_bit6 : lastEvent (exec .ldcmd { readyAt 1 8 with dreg := 0x40#8, ireg := 0x4C#8 }) =
    some (.drive .din true, 1, 9, 0x40#8, 0x4C#8) := by decide

/-- 2.3: bit 7 of `0x80` is on the data line at slot 1. -/
theorem test_xfer_bit7 : lastEvent (exec (.xfer 0x80#8 0x01#8) { readyAt 1 4 with dreg := 0x80#8, ireg := 0x01#8 }) =
    some (.drive .din true, 1, 5, 0x80#8, 0x01#8) := by decide

/-- 2.3: bit 0 of `0x01` is on the instruction line at slot 8. -/
theorem test_xfer_bit0 : lastEvent (exec (.xfer 0x80#8 0x01#8) { readyAt 1 33 with dreg := 0x80#8, ireg := 0x01#8 }) =
    some (.drive .iin true, 1, 34, 0x80#8, 0x01#8) := by decide

/-- R122: the last micro-step lowers the clock and goes to the next word. -/
theorem test_lddata_last : lastEvent (exec (.lddata 0x62#8) { clockHigh 2 41 with dreg := 0x62#8, ireg := 0x2C#8 }) =
    some (.drive .sclk false, 3, 0, 0x62#8, 0x2C#8) := by decide

theorem test_sell_first : lastEvent (exec .sell (readyAt 3 0)) = some (.drive .din false, 3, 1, 0x00#8, 0x64#8) := by
  decide
theorem test_selh_first : lastEvent (exec .selh (readyAt 8 0)) = some (.drive .din false, 8, 1, 0x00#8, 0x74#8) := by
  decide
theorem test_sele_first : lastEvent (exec .sele (readyAt 13 0)) = some (.drive .din false, 13, 1, 0x00#8, 0x66#8) := by
  decide
theorem test_wrl_first : lastEvent (exec .wrl (readyAt 4 0)) = some (.drive .din false, 4, 1, 0x00#8, 0x6C#8) := by
  decide
theorem test_wrh_first : lastEvent (exec .wrh (readyAt 9 0)) = some (.drive .din false, 9, 1, 0x00#8, 0x7C#8) := by
  decide
theorem test_wre_first : lastEvent (exec .wre (readyAt 14 0)) = some (.drive .din false, 14, 1, 0x00#8, 0x6E#8) := by
  decide

/-- U6: a transfer does not start with the clock high. -/
theorem test_xfer_clock_high : exec (.xfer 0x00#8 0x00#8) (clockHigh 1 0) = .refused .transferWithClockHigh := by rfl

/-- 2.4, first row: a high sample goes on. -/
theorem test_poll_high (h : Config.doutLevel 0 = true) :
    lastEvent (exec .poll (readyAt 5 0)) = some (.sample true, 6, 0, 0x00#8, 0x00#8) := by
  simp [exec, execPoll, pollMicro, answer, h, readyAt, State.reset, lastEvent, nextOf, nextWord, sample]

/-- 2.4, second row: a low sample stays. -/
theorem test_poll_low (h : Config.doutLevel 0 = false) :
    lastEvent (exec .poll (readyAt 5 0)) = some (.sample false, 5, 0, 0x00#8, 0x00#8) := by
  simp [exec, execPoll, pollMicro, answer, h, readyAt, State.reset, lastEvent, nextOf, sample]

/-- R203: no `POLL` and no transfer before `ENTER`. -/
theorem test_poll_before_enter : exec .poll State.reset = .refused .linesNotConfigured := by rfl
theorem test_xfer_before_enter : exec (.xfer 0xAA#8 0x55#8) State.reset = .refused .linesNotConfigured := by rfl

/-- U3: no sample while the engine drives data-out. -/
theorem test_poll_driven : exec .poll (doutDriven 5) = .refused .sampleWhileDriven := by rfl

/-- 2.6, `u = 0` of `ENTER` from reset. -/
theorem test_enter_first : lastEvent (exec .enter State.reset) = some (.setDirAllOut, 0, 1, 0x00#8, 0x00#8) := by decide

/-- 2.6, `u = 8`. -/
theorem test_enter_last : lastEvent (exec .enter (readyAt 0 8)) = some (.delay .tSettle2, 1, 0, 0x00#8, 0x00#8) := by
  decide

/-- 2.6: `EXIT` from `(16, 0)`: one event, the level view, and `done` rises. -/
theorem test_exit : (nextOf (exec .exit (readyAt 16 0))).map (fun t => (levelView t, t.mpc, done t)) =
    some (⟨.level false, .level false, .z, .level false, .level true⟩, 17#5, true) := by decide

/-- 2.6: `HALT` at `(17, 0)`. -/
theorem test_halt : nextOf (exec .halt (readyAt 17 0)) = some (readyAt 17 0) := by decide

/-- 2.5: the end of `WFUSE.L 0x62`, its registers, and its events by number. -/
theorem test_wfuseL (h : Config.doutLevel 0 = true) :
    (nextOf (exec (.wfuseL 0x62#8) (readyAt 1 0))).map (fun t => (t.dreg, t.ireg, t.mpc)) =
      some (0x00#8, 0x6C#8, 6#5) := by
  rw [exec_fuseWrite _ .low 0x62#8 rfl, (fuseWrite_next_iff _ _ _ _).2 ⟨rfl, rfl, rfl, rfl, rfl⟩,
    fuseTransfers_eq _ _ _ rfl]
  simp [nextOf, pollMicro, answer, readyAt, State.reset, h, fuseStrobe]

/-- 2.5: the two strings of `WFUSE.H 0xDF` over its 44 edges. -/
theorem test_wfuseH_strings : clockSampled (wires (readyAt 6 0)) (fuseEvents .high 0xDF#8) =
    List.zip
      ("00100000000011011111000000000000000000000000".toList.map (· == '1'))
      ("00100110000000101100000011101000000111110000".toList.map (· == '1')) := by decide +kernel

/-- 2.5: the instruction string of `WFUSE.E 0xFF`. -/
theorem test_wfuseE_strings : (clockSampled (wires (readyAt 11 0)) (fuseEvents .ext 0xFF#8)).map (fun p => p.2) =
    "00100110000000101100000011001100000110111000".toList.map (· == '1') := by decide +kernel

/-- Program 2: a session whose every first sample is high has 514 events and 3 samples. -/
theorem test_session_events : (sessionEvents true true true).length = 517 := by decide +kernel

/-- The reference target before a session (R80). -/
def freshTarget : Target where
  shiftD := 0
  shiftI := 0
  count := 0
  writeFuse := false
  data := 0
  sel := none
  low := 0
  high := 0
  ext := 0
  busy := 0
  strobes := 0

/-- The trace of Program 2: answers `1`, then `0, 1`, then `0, 0, 0, 1`. -/
def programTwo : List Event :=
  enterEvents ++ fuseEvents .low 0x62#8 ++ [.sample true]
    ++ fuseEvents .high 0xDF#8 ++ [.sample false, .sample true]
    ++ fuseEvents .ext 0xFF#8 ++ [.sample false, .sample false, .sample false, .sample true]
    ++ [.drive .hvrst true]

/-- Program 2: 521 events, and the reference target that draws 0, 1 and 3 at its strobes gives exactly these answers. -/
theorem test_program_two_admitted : programTwo.length = 521 ∧
    targetAdmits ([0, 1, 3].getD · 0) (wires State.reset) freshTarget programTwo = true := by decide +kernel

/-- Program 2, with that target: the fuses after the session are `0x62`, `0xDF`, `0xFF`. -/
theorem test_program_two_fuses :
    (fun t : Target => (t.low, t.high, t.ext)) (targetRun ([0, 1, 3].getD · 0) (wires State.reset) freshTarget programTwo)
      = (0x62#8, 0xDF#8, 0xFF#8) := by decide +kernel

/-! ## Witnesses: a state and operands that meet the hypotheses of each statement -/

/-- `mpc = 17` after a whole session: the lines of R178 and the registers of its last transfer. -/
def halted : State :=
  { readyAt 17 0 with
    ireg := 0x6E#8
    out := { din := false, iin := false, dout := false, sclk := false, hvrst := true } }

/-- The second micro-step of `ENTER` is next. -/
def enterSecond : State := { State.reset with u := 1, dir := DirReg.allOut }

/-- The seventh micro-step of `ENTER` is next: the high voltage has just been asserted. -/
def enterSeventh : State := { readyAt 0 6 with dir := DirReg.allOut }

theorem inv_enterSecond : Inv enterSecond := by
  refine ⟨by decide, by decide, by decide, by decide, by decide, by decide, by decide, by decide, by decide, ?_⟩
  intro q h
  rw [show loadedPair fixedProgram enterSecond.mpc.toNat enterSecond.u.toNat = none by decide] at h
  cases h

theorem inv_enterSeventh : Inv enterSeventh := by
  refine ⟨by decide, by decide, by decide, by decide, by decide, by decide, by decide, by decide, by decide, ?_⟩
  intro q h
  rw [show loadedPair fixedProgram enterSeventh.mpc.toNat enterSeventh.u.toNat = none by decide] at h
  cases h

theorem inv_firstTransfer : Inv (readyAt 1 0) := by
  refine ⟨by decide, by decide, by decide, by decide, by decide, by decide, by decide, by decide, by decide, ?_⟩
  intro q h
  rw [show loadedPair fixedProgram (readyAt 1 0).mpc.toNat (readyAt 1 0).u.toNat = none by decide] at h
  cases h

theorem inv_enterLast : Inv (readyAt 0 8) := by
  refine ⟨by decide, by decide, by decide, by decide, by decide, by decide, by decide, by decide, by decide, ?_⟩
  intro q h
  rw [show loadedPair fixedProgram (readyAt 0 8).mpc.toNat (readyAt 0 8).u.toNat = none by decide] at h
  cases h

theorem inv_halted : Inv halted := by
  refine ⟨by decide, by decide, by decide, by decide, by decide, by decide, by decide, by decide, by decide, ?_⟩
  intro q h
  rw [show loadedPair fixedProgram halted.mpc.toNat halted.u.toNat = some (0x00#8, 0x6E#8) by decide] at h
  cases h
  decide

theorem witness_DecodingFollowsKindThenName :
    (1 ≤ (1#3).toNat ∧ (1#3).toNat ≤ 4) ∧ (1 ≤ (4#3).toNat ∧ (4#3).toNat ≤ 4) ∧ 5 ≤ (5#3).toNat ∧ 5 ≤ (7#3).toNat := by
  decide

theorem witness_ReservedWordIsRefused :
    fetch (withWord 1 0 (packWord 5#3 0x00#8 0x00#8)) = some (packWord 5#3 0x00#8 0x00#8) ∧
    fetch (withWord 1 0 (packWord 7#3 0xFF#8 0xFF#8)) = some (packWord 7#3 0xFF#8 0xFF#8) ∧
    fetch (withWord 1 0 (packWord 1#3 0x00#8 0x01#8)) = some (packWord 1#3 0x00#8 0x01#8) ∧
    fetch (withWord 1 0 (packWord 4#3 0xFF#8 0x00#8)) = some (packWord 4#3 0xFF#8 0x00#8) := by decide

theorem witness_DecodeOfEncode :
    (Instr.xfer 0xAA#8 0x55#8).wellFormed = true ∧ (Instr.xfer 0x00#8 0x00#8).wellFormed = true ∧
    (Instr.lddata 0xFF#8).wellFormed = true ∧ (Instr.wfuseE 0xFF#8).wellFormed = true ∧
    Instr.session.wellFormed = true := by decide

theorem witness_EncodeOfDecode : decodeWord 0x0AA55#19 = .ok (.xfer 0xAA#8 0x55#8) ∧ decodeWord 0x40000#19 = .ok .halt :=
  ⟨rfl, rfl⟩

theorem witness_FuseDescriptors : (Fuse.ext, 11) ∈ [(Fuse.low, 1), (Fuse.high, 6), (Fuse.ext, 11)] := by decide

theorem witness_FramePlacesPayload : (wires State.reset).out.sclk = false := rfl

theorem witness_StepRunsDecodedInstruction :
    (fetch State.reset = some enterWord ∧ decodeWord enterWord = .ok .enter) ∧
    fetch (readyAt 18 0) = none ∧ fetch (readyAt 31 0) = none := ⟨⟨rfl, rfl⟩, rfl, rfl⟩

theorem witness_PlacedWordIsFetched :
    (Program.wf State.reset.prog = true ∧ State.reset.mpc.toNat < 18) ∧
    (Program.wf (readyAt 17 0).prog = true ∧ (readyAt 17 0).mpc.toNat < 18) ∧
    (decodeWord 0x40000#19 = .ok .halt ∧ needsEntry .halt = false) ∧
    (decodeWord 0x10000#19 = .ok .poll ∧ needsEntry .poll = true) ∧
    (decodeWord 0x00000#19 = .ok (.xfer 0x00#8 0x00#8) ∧ needsEntry (.xfer 0x00#8 0x00#8) = true) :=
  ⟨by decide, by decide, ⟨rfl, rfl⟩, ⟨rfl, rfl⟩, rfl, rfl⟩

theorem witness_TransferMicroStep :
    (operandPair .ldcmd = some (0x40#8, 0x4C#8) ∧ (readyAt 1 0).u.toNat < 42 ∧ (readyAt 1 0).out.sclk = false ∧
      (readyAt 1 0).dir.serialOut = true) ∧
    (operandPair (.xfer 0xFF#8 0x00#8) = some (0xFF#8, 0x00#8) ∧ (clockHigh 1 41).u.toNat < 42 ∧
      (clockHigh 1 41).u.toNat ≠ 0) := by decide

theorem witness_TransferStops :
    operandPair .wre = some (0x00#8, 0x6E#8) ∧ 42 ≤ (readyAt 14 42).u.toNat ∧
    ((clockHigh 14 0).u.toNat = 0 ∧ (clockHigh 14 0).out.sclk = true) ∧
    ((beforeEntry 14).u.toNat = 0 ∧ (beforeEntry 14).out.sclk = false ∧ (beforeEntry 14).dir.din = .input) := by decide

theorem witness_TransferFrame :
    (operandPair .sell = some (0x00#8, 0x64#8) ∧ ∃ t, exec .sell (readyAt 3 0) = .next t) ∧
    (∃ t, exec .sell (readyAt 3 1) = .next t) ∧ ∃ t, exec .sell (clockHigh 3 41) = .next t :=
  ⟨⟨rfl, _, rfl⟩, ⟨_, rfl⟩, ⟨_, rfl⟩⟩

theorem witness_WholeTransfer :
    operandPair (.lddata 0x62#8) = some (0x62#8, 0x2C#8) ∧ (readyAt 2 0).u = 0#6 ∧ (readyAt 2 0).out.sclk = false ∧
    (readyAt 2 0).dir.serialOut = true := by
  decide

theorem witness_TransferIsNotInterrupted :
    fetch (readyAt 1 0) = some (xferWord 0x40#8 0x4C#8) ∧ (readyAt 1 0).u = 0#6 ∧ (readyAt 1 0).out.sclk = false ∧
    (readyAt 1 0).dir.serialOut = true := by
  decide

theorem witness_ClockSampledTransfer : (wires State.reset).out.sclk = false := rfl

theorem witness_TransferEventCounts : (wires (readyAt 1 0)).out.sclk = false := rfl

theorem witness_TransferLevelChanges :
    (wires (readyAt 1 0)).out.din = false ∧ (wires (readyAt 1 0)).out.iin = false ∧
    (wires (readyAt 1 0)).out.sclk = false := ⟨rfl, rfl, rfl⟩

theorem witness_SerialLinesWrittenWhileClockLow :
    (Inv enterSecond ∧ ∃ t, step enterSecond = .next t ∧ t.log = .drive .din false :: enterSecond.log) ∧
    (Inv (readyAt 1 0) ∧ ∃ t, step (readyAt 1 0) = .next t ∧ t.log = .drive .din false :: (readyAt 1 0).log) :=
  ⟨⟨inv_enterSecond, _, rfl, rfl⟩, ⟨inv_firstTransfer, _, rfl, rfl⟩⟩

theorem witness_PollStep :
    ((readyAt 5 0).u = 0#6 ∧ (readyAt 5 0).dir.dout = .input ∧ (readyAt 5 0).dir.serialOut = true) ∧
    (fetch (readyAt 10 0) = some 0x10000#19 ∧ (readyAt 10 0).u = 0#6 ∧ (readyAt 10 0).dir.dout = .input ∧
      (readyAt 10 0).dir.serialOut = true) := by decide

theorem witness_PollNeverLeavesOnLowSample :
    fetch (readyAt 5 0) = some pollWord ∧ ∃ t, step (readyAt 5 0) = .next t := ⟨rfl, _, rfl⟩

theorem witness_PollHangsWhileLow :
    fetch (readyAt 15 0) = some pollWord ∧ (readyAt 15 0).u = 0#6 ∧ (readyAt 15 0).dir.dout = .input ∧
    (readyAt 15 0).dir.serialOut = true := by decide

theorem witness_PollStops :
    (readyAt 5 1).u ≠ 0#6 ∧ ((doutDriven 5).u = 0#6 ∧ (doutDriven 5).dir.dout = .output) ∧
    ((beforeEntry 0).u = 0#6 ∧ (beforeEntry 0).dir.dout = .input ∧ (beforeEntry 0).dir.sclk = .input) := by decide

theorem witness_SampleOnlyWhileNotDriven :
    ∃ t b, step (readyAt 5 0) = .next t ∧ t.log = .sample b :: (readyAt 5 0).log :=
  ⟨_, _, rfl, (pollMicro_frame _).2.2.2.2.2.2⟩

theorem witness_FuseWriteCompletes :
    fuseOperand (.wfuseL 0x62#8) = some (.low, 0x62#8) ∧ (readyAt 1 0).u = 0#6 ∧ (readyAt 1 0).out.sclk = false ∧
    (readyAt 1 0).dir.dout = .input ∧ (readyAt 1 0).dir.serialOut = true := by decide

theorem witness_FuseWriteIsItsExpansion :
    fuseOperand (.wfuseE 0xFF#8) = some (.ext, 0xFF#8) ∧ HoldsAt (readyAt 11 0) (encode (.wfuseE 0xFF#8)) ∧
    (readyAt 11 0).u = 0#6 ∧ (readyAt 11 0).out.sclk = false ∧ (readyAt 11 0).dir.dout = .input ∧
    (readyAt 11 0).dir.serialOut = true := by
  refine ⟨rfl, ?_, rfl, rfl, rfl, rfl⟩
  unfold HoldsAt
  decide +kernel

theorem witness_FuseWriteFrame :
    fuseOperand (.wfuseH 0xDF#8) = some (.high, 0xDF#8) ∧ ∃ t, exec (.wfuseH 0xDF#8) (readyAt 6 0) = .next t :=
  ⟨rfl, _, (fuseWrite_next_iff .high 0xDF#8 (readyAt 6 0) _).2 ⟨rfl, rfl, rfl, rfl, rfl⟩⟩

theorem witness_MacroStops :
    fuseOperand (.wfuseL 0x00#8) = some (.low, 0x00#8) ∧ (readyAt 1 63).u ≠ 0#6 ∧
    ((clockHigh 1 0).u = 0#6 ∧ (clockHigh 1 0).out.sclk = true) ∧
    ((doutDriven 1).u = 0#6 ∧ (doutDriven 1).out.sclk = false ∧ (doutDriven 1).dir.dout = .output) ∧
    ((beforeEntry 1).u = 0#6 ∧ (beforeEntry 1).out.sclk = false ∧ (beforeEntry 1).dir.dout = .input ∧
      (beforeEntry 1).dir.iin = .input) := by decide

theorem witness_EnterMicroStep : State.reset.u.toNat < 9 ∧ (readyAt 0 8).u.toNat < 9 := by decide

theorem witness_WholeEnter : State.reset.u = 0#6 := rfl

/-- The fixed program before `EXIT`. -/
def exitNext : State := { readyAt 16 0 with ireg := 0x6E#8 }

theorem witness_EntryAndExitLevelViews : Inv exitNext ∧ exitNext.mpc = 16#5 := by
  refine ⟨⟨by decide, by decide, by decide, by decide, by decide, by decide, by decide, by decide, by decide, ?_⟩, rfl⟩
  intro q h
  rw [show loadedPair fixedProgram exitNext.mpc.toNat exitNext.u.toNat = some (0x00#8, 0x6E#8) by decide] at h
  cases h
  decide

theorem witness_EnterFrame : (∃ t, exec .enter State.reset = .next t) ∧ ∃ t, exec .enter (readyAt 0 8) = .next t :=
  ⟨⟨_, rfl⟩, ⟨_, rfl⟩⟩

theorem witness_ExitStep :
    (readyAt 16 0).u = 0#6 ∧ ((readyAt 16 0).mpc = 16#5 ∧ ∃ t, exec .exit (readyAt 16 0) = .next t) ∧
    (halted.prog = fixedProgram ∧ halted.mpc = 17#5 ∧ ∃ t, step halted = .next t) :=
  ⟨rfl, ⟨rfl, _, rfl⟩, rfl, rfl, _, rfl⟩

theorem witness_HaltIsFinal : IsFinal halted := rfl

theorem witness_PollExitHaltFrame :
    (∃ t, exec .poll (readyAt 5 0) = .next t) ∧ (∃ t, exec .exit (readyAt 16 0) = .next t) ∧
    ∃ t, exec .halt (readyAt 17 0) = .next t := ⟨⟨_, rfl⟩, ⟨_, rfl⟩, ⟨_, rfl⟩⟩

theorem witness_EnterExitStops : 9 ≤ (readyAt 0 9).u.toNat ∧ (readyAt 16 1).u ≠ 0#6 := by decide

theorem witness_SessionCompletes : State.reset.u = 0#6 ∧ State.reset.out.sclk = false := ⟨rfl, rfl⟩

theorem witness_SessionIsRunOfFixedProgram :
    State.reset.prog = fixedProgram ∧ State.reset.mpc = 0#5 ∧ State.reset.u = 0#6 ∧ State.reset.out.sclk = false :=
  ⟨rfl, rfl, rfl, rfl⟩

theorem witness_SessionFrame : ∃ t, exec .session State.reset = .next t :=
  ⟨_, (execSession_next_iff State.reset _).2 ⟨rfl, rfl, rfl⟩⟩

theorem witness_StepKeepsInvariant :
    (Inv enterSecond ∧ ∃ t, step enterSecond = .next t) ∧ (Inv halted ∧ ∃ t, step halted = .next t) :=
  ⟨⟨inv_enterSecond, _, rfl⟩, ⟨inv_halted, _, rfl⟩⟩

theorem witness_LineStateAtBoundaries :
    (Inv (readyAt 1 0) ∧ (readyAt 1 0).u = 0#6 ∧ 1 ≤ (readyAt 1 0).mpc.toNat) ∧
    (Inv enterSeventh ∧ enterSeventh.out.hvrst = false) ∧ (Inv halted ∧ halted.out.hvrst = true) :=
  ⟨⟨inv_firstTransfer, rfl, by decide⟩, ⟨inv_enterSeventh, rfl⟩, ⟨inv_halted, rfl⟩⟩

theorem witness_FixedProgramNeverStops : Inv enterSecond ∧ Inv (readyAt 1 0) ∧ Inv halted :=
  ⟨inv_enterSecond, inv_firstTransfer, inv_halted⟩

theorem witness_CounterNeverDecreases :
    (Inv enterSecond ∧ ∃ t, step enterSecond = .next t ∧ t.mpc = enterSecond.mpc) ∧
    (Inv (readyAt 0 8) ∧ ∃ t, step (readyAt 0 8) = .next t ∧ t.mpc = 1#5) :=
  ⟨⟨inv_enterSecond, _, rfl, rfl⟩, ⟨inv_enterLast, _, rfl, rfl⟩⟩

theorem witness_ProgramSpaceNeverWritten : ∃ t, exec .exit (readyAt 16 0) = .next t := ⟨_, rfl⟩

theorem witness_OneEventPerMicroStep :
    (∃ t, step State.reset = .next t ∧ t ≠ State.reset) ∧ ∃ t, step halted = .next t ∧ t = halted :=
  ⟨⟨_, rfl, by decide⟩, ⟨_, rfl, rfl⟩⟩

theorem witness_TraceExplainsLines :
    replay (wires State.reset) (trace State.reset) = wires State.reset ∧ ∃ t, step State.reset = .next t :=
  ⟨rfl, _, rfl⟩

theorem witness_DataOutNeverDrivenHigh : (∃ t, exec .enter State.reset = .next t) ∧ State.reset.out.dout = false :=
  ⟨⟨_, rfl⟩, rfl⟩

theorem witness_LineAccessTable :
    (∃ t, exec .enter (readyAt 0 7) = .next t ∧ t.log = .setDir .dout .input :: (readyAt 0 7).log) ∧
    (∃ t, exec .exit (readyAt 16 0) = .next t ∧ t.log = .drive .hvrst true :: (readyAt 16 0).log) ∧
    ∃ t, exec .wrl (readyAt 4 0) = .next t ∧ t.log = .drive .din false :: (readyAt 4 0).log :=
  ⟨⟨_, rfl, rfl⟩, ⟨_, rfl, rfl⟩, ⟨_, rfl, rfl⟩⟩

theorem witness_OperandRegistersLoadedAtTransferStart :
    ∃ t, step (readyAt 1 0) = .next t ∧ t.dreg ≠ (readyAt 1 0).dreg := ⟨_, rfl, by decide⟩

theorem witness_RunEndsOrDataOutStaysLow : Inv enterSecond ∧ Inv halted := ⟨inv_enterSecond, inv_halted⟩

theorem witness_FinalStateOfSession : Inv halted ∧ halted.mpc = 17#5 := ⟨inv_halted, rfl⟩

theorem witness_SessionStateAndDone :
    (readyAt 0 0).mpc.toNat = 0 ∧ (1 ≤ (readyAt 1 0).mpc.toNat ∧ (readyAt 16 0).mpc.toNat ≤ 16) ∧
    (readyAt 17 0).mpc.toNat = 17 := by decide

theorem witness_LatchDirectionsAndPins :
    (readyAt 1 0).dir.dout = .input ∧ (doutDriven 1).dir.dout = .output ∧ State.reset.dir.din = .input ∧
    (readyAt 1 0).dir.din = .output := by decide

end Sys2Proof.Tests
end

section
/-! One primitive of R11 per micro-step: the event it appends to the trace (R12, R193) and what that event does to the
lines (R11). -/

namespace Sys2Proof.Machine

/-- From `s` to `t` the engine performed one primitive of R11: its event is the newest of the trace, and the lines have
changed as the event's row says. -/
structure Performs (s : State) (ev : Event) (t : State) : Prop where
  log_eq : t.log = ev :: s.log
  wires_eq : wires t = wiresAfter (wires s) ev

/-! ## The primitives (R11) -/

theorem drive_performs (l : Line) (v : Bool) (s : State) : Performs s (.drive l v) (drive l v s) := ⟨rfl, rfl⟩

theorem setDir_performs (l : ConfLine) (d : Direction) (s : State) : Performs s (.setDir l d) (setDir l d s) :=
  ⟨rfl, rfl⟩

theorem setDirAllOut_performs (s : State) : Performs s .setDirAllOut (setDirAllOut s) := ⟨rfl, rfl⟩

theorem sample_performs (s : State) : Performs s (.sample (answer s)) (sample s) := ⟨rfl, rfl⟩

theorem delay_performs (t : Settle) (s : State) : Performs s (.delay t) (delay t s) := ⟨rfl, rfl⟩

/-! ## The registers and the program counter are no part of it -/

theorem Performs.nextMicro {s t : State} {ev : Event} (h : Performs s ev t) : Performs s ev (nextMicro t) :=
  ⟨h.log_eq, h.wires_eq⟩

theorem Performs.nextWord {s t : State} {ev : Event} (h : Performs s ev t) : Performs s ev (nextWord t) :=
  ⟨h.log_eq, h.wires_eq⟩

theorem Performs.of_loadOperands {s t : State} {ev : Event} {d i : Byte} (h : Performs (loadOperands d i s) ev t) :
    Performs s ev t :=
  ⟨h.log_eq, h.wires_eq⟩

/-! ## The micro-steps -/

theorem transferMicro_performs (d i : Byte) (s : State) (h : s.u.toNat < 42) :
    ∃ ev, Performs s ev (transferMicro d i s) := by
  obtain ⟨-, e⟩ | ⟨j, -, -, -, e⟩ | ⟨j, -, -, e⟩ | ⟨j, -, -, e⟩ | ⟨j, -, -, e⟩ | ⟨-, e⟩ | ⟨-, e⟩ :=
    transferMicro_cases d i s h <;> rw [e]
  · exact ⟨_, (drive_performs .din false (loadOperands d i s)).of_loadOperands.nextMicro⟩
  · exact ⟨_, (drive_performs .din (frameBit s.dreg j) s).nextMicro⟩
  · exact ⟨_, (drive_performs .iin (frameBit s.ireg j) s).nextMicro⟩
  · exact ⟨_, (drive_performs .sclk true s).nextMicro⟩
  · exact ⟨_, (drive_performs .sclk false s).nextMicro⟩
  · exact ⟨_, (drive_performs .sclk true s).nextMicro⟩
  · exact ⟨_, (drive_performs .sclk false s).nextWord⟩

theorem pollMicro_performs (s : State) : Performs s (.sample (answer s)) (pollMicro s) := by
  obtain ⟨-, e⟩ | ⟨-, e⟩ := pollMicro_cases s <;> rw [e]
  · exact (sample_performs s).nextWord
  · exact sample_performs s

theorem enterMicro_performs (s : State) (h : s.u.toNat < 9) : ∃ ev, Performs s ev (enterMicro s) := by
  obtain ⟨-, e⟩ | ⟨-, e⟩ | ⟨-, e⟩ | ⟨-, e⟩ | ⟨-, e⟩ | ⟨-, e⟩ | ⟨-, e⟩ | ⟨-, e⟩ | ⟨-, e⟩ :=
    enterMicro_cases s h <;> rw [e]
  · exact ⟨_, (setDirAllOut_performs s).nextMicro⟩
  · exact ⟨_, (drive_performs .din false s).nextMicro⟩
  · exact ⟨_, (drive_performs .iin false s).nextMicro⟩
  · exact ⟨_, (drive_performs .dout false s).nextMicro⟩
  · exact ⟨_, (drive_performs .hvrst true s).nextMicro⟩
  · exact ⟨_, (drive_performs .hvrst false s).nextMicro⟩
  · exact ⟨_, (delay_performs .tSettle1 s).nextMicro⟩
  · exact ⟨_, (setDir_performs .dout .input s).nextMicro⟩
  · exact ⟨_, (delay_performs .tSettle2 s).nextWord⟩

theorem exitMicro_performs (s : State) : Performs s (.drive .hvrst true) (exitMicro s) :=
  (drive_performs .hvrst true s).nextWord

/-- A step performs one primitive, or the word is `HALT` and nothing changes (R12, R172, R193). -/
theorem step_performs_or_halts (s t : State) (h : step s = .next t) :
    (∃ ev, Performs s ev t) ∨ (fetch s = some haltWord ∧ t = s) := by
  obtain ⟨d, i, -, hu, -, rfl⟩ | ⟨-, -, -, -, rfl⟩ | ⟨-, hu, rfl⟩ | ⟨-, -, rfl⟩ | hhalt := step_cases s t h
  · exact .inl (transferMicro_performs d i s hu)
  · exact .inl ⟨_, pollMicro_performs s⟩
  · exact .inl (enterMicro_performs s hu)
  · exact .inl ⟨_, exitMicro_performs s⟩
  · exact .inr hhalt

/-! ## Replaying the trace (R7) -/

/-- The lines after one event more. -/
theorem replay_concat (w : Wires) (es : List Event) (ev : Event) :
    replay w (es ++ [ev]) = wiresAfter (replay w es) ev := by
  simp only [replay, List.foldl_concat]

theorem Performs.trace_eq {s t : State} {ev : Event} (h : Performs s ev t) : trace t = trace s ++ [ev] := by
  simp only [trace, h.log_eq, List.reverse_cons]

/-- A trace that explains the lines still does after one more primitive. -/
theorem Performs.keeps_replay {s t : State} {ev : Event} (h : Performs s ev t) (w : Wires)
    (hs : replay w (trace s) = wires s) : replay w (trace t) = wires t := by
  rw [h.trace_eq, replay_concat, hs, h.wires_eq]

/-! ## Fetch, decode, run (R61, R103) -/

theorem step_eq_exec (s : State) (w : ProgWord) (i : Instr) (hf : fetch s = some w) (hd : decodeWord w = .ok i) :
    step s = exec i s := by
  simp only [step, hf, hd]

theorem step_of_fetch_none (s : State) (hf : fetch s = none) : step s = .refused .noProgramWord := by
  simp only [step, hf]

/-- Program space has eighteen words, and the sequencer reads the one at `mpc` (R60, R61). -/
theorem fetch_eq (s : State) : fetch s = if s.mpc.toNat < 18 then s.prog[s.mpc.toNat]? else none := rfl

/-! ## The time of an entry (R198, R224) -/

/-- The two delays of an entry are its settling delays. -/
theorem delayTime_enterEvents :
    delayTime enterEvents = (Config.settleLength .tSettle1 : Nat) + Config.settleLength .tSettle2 := by
  simp [delayTime, enterEvents, delayOf]

/-- The micro-steps of an entry that are no delays. -/
theorem filter_isCounted_enterEvents : enterEvents.filter isCounted =
    [.setDirAllOut, .drive .din false, .drive .iin false, .drive .dout false, .drive .hvrst true, .drive .hvrst false,
      .setDir .dout .input] := rfl

theorem stepCycles_enterEvents : stepCycles enterEvents = 7 * Config.cycPerStep := by
  rw [stepCycles, filter_isCounted_enterEvents]
  rfl

/-! ## The statements -/

/-- Settles O51: every word but `HALT` performs one primitive, and each primitive appends its one event. -/
theorem oneEventPerMicroStep : Obligations.OneEventPerMicroStep := by
  intro s t h
  obtain ⟨ev, hp⟩ | hhalt := step_performs_or_halts s t h
  · exact .inl ⟨ev, hp.log_eq⟩
  · exact .inr hhalt

/-- Settles O52: the event a step appends says how the lines changed; at `HALT` neither trace nor lines change. -/
theorem traceExplainsLines : Obligations.TraceExplainsLines := by
  intro s t hs h
  obtain ⟨ev, hp⟩ | ⟨-, rfl⟩ := step_performs_or_halts s t h
  · exact hp.keeps_replay _ hs
  · exact hs

/-- Settles O11, from the two equations of `step` and that of `fetch`. -/
theorem stepRunsDecodedInstruction : Obligations.StepRunsDecodedInstruction :=
  ⟨step_eq_exec, step_of_fetch_none, fetch_eq⟩

/-- Settles O42, whatever the lengths of the delays and the cycles of a micro-step are. -/
theorem delaysOfEntry : Obligations.DelaysOfEntry := ⟨delayTime_enterEvents, stepCycles_enterEvents⟩

end Sys2Proof.Machine
end

section
/-! The counter after a micro-step (R22, R23), and with it the next state of every micro-step of a transfer and of an
entry, given whole (R121, R122, R170). -/

namespace Sys2Proof.Machine

/-! ## The counter (R22) -/

/-- The counter after a micro-step of a word whose last one is `last`: the next micro-step, or the next word. -/
def advance (last : Nat) (s : State) : State :=
  { s with
    mpc := if s.u.toNat = last then s.mpc + 1 else s.mpc
    u := if s.u.toNat = last then 0#6 else s.u + 1 }

@[simp] theorem advance_dreg (last : Nat) (s : State) : (advance last s).dreg = s.dreg := rfl
@[simp] theorem advance_ireg (last : Nat) (s : State) : (advance last s).ireg = s.ireg := rfl
@[simp] theorem advance_out (last : Nat) (s : State) : (advance last s).out = s.out := rfl
@[simp] theorem advance_dir (last : Nat) (s : State) : (advance last s).dir = s.dir := rfl
@[simp] theorem advance_prog (last : Nat) (s : State) : (advance last s).prog = s.prog := rfl
@[simp] theorem advance_samples (last : Nat) (s : State) : (advance last s).samples = s.samples := rfl
@[simp] theorem advance_log (last : Nat) (s : State) : (advance last s).log = s.log := rfl

theorem nextMicro_eq_advance (last : Nat) (s : State) (h : s.u.toNat ≠ last) : nextMicro s = advance last s := by
  simp only [nextMicro, advance, if_neg h]

theorem nextWord_eq_advance (last : Nat) (s : State) (h : s.u.toNat = last) : nextWord s = advance last s := by
  simp only [nextWord, advance, if_pos h]
  rfl

/-! ## Where each event stands in the pseudocode of a transfer (R121) -/

theorem transferEvents_data (d i : Byte) (j : Nat) (hj : j ≤ 9) :
    (transferEvents d i)[4 * j]? = some (.drive .din (frameBit d j)) := by
  rw [frameBit_eq d j (by omega)]
  interval_cases j <;> rfl

theorem transferEvents_instr (d i : Byte) (j : Nat) (hj : j ≤ 9) :
    (transferEvents d i)[4 * j + 1]? = some (.drive .iin (frameBit i j)) := by
  rw [frameBit_eq i j (by omega)]
  interval_cases j <;> rfl

theorem transferEvents_clockHigh (d i : Byte) (j : Nat) (hj : j ≤ 9) :
    (transferEvents d i)[4 * j + 2]? = some (.drive .sclk true) := by
  interval_cases j <;> rfl

theorem transferEvents_clockLow (d i : Byte) (j : Nat) (hj : j ≤ 9) :
    (transferEvents d i)[4 * j + 3]? = some (.drive .sclk false) := by
  interval_cases j <;> rfl

/-! ## One micro-step as its event and the counter -/

/-- The first micro-step of a transfer loads the operands and performs the first event. -/
theorem transferMicro_start (d e : Byte) (s : State) (hu : s.u.toNat = 0) :
    transferMicro d e s = advance 41 (drive .din false (loadOperands d e s)) :=
  (transferMicro_first d e s hu).trans (nextMicro_eq_advance 41 _ (by simp [hu]))

/-- A later micro-step of a transfer performs the event at its index for the operands held in `DREG` and `IREG`. -/
theorem transferMicro_later (d e : Byte) (s : State) (h : s.u.toNat < 42) (h0 : s.u.toNat ≠ 0) :
    ∃ (l : Line) (v : Bool), (transferEvents s.dreg s.ireg)[s.u.toNat]? = some (.drive l v) ∧
      transferMicro d e s = advance 41 (drive l v s) := by
  have hmicro (t : State) (htu : t.u = s.u) (h41 : s.u.toNat ≠ 41) : nextMicro t = advance 41 t :=
    nextMicro_eq_advance 41 t (htu ▸ h41)
  obtain ⟨hu, -⟩ | ⟨j, -, h9, hu, he⟩ | ⟨j, h9, hu, he⟩ | ⟨j, h9, hu, he⟩ | ⟨j, h9, hu, he⟩ | ⟨hu, he⟩ | ⟨hu, he⟩ :=
    transferMicro_cases d e s h
  · exact absurd hu h0
  · exact ⟨_, _, hu ▸ transferEvents_data s.dreg s.ireg j h9, he.trans (hmicro _ rfl (by omega))⟩
  · exact ⟨_, _, hu ▸ transferEvents_instr s.dreg s.ireg j h9, he.trans (hmicro _ rfl (by omega))⟩
  · exact ⟨_, _, hu ▸ transferEvents_clockHigh s.dreg s.ireg j h9, he.trans (hmicro _ rfl (by omega))⟩
  · exact ⟨_, _, hu ▸ transferEvents_clockLow s.dreg s.ireg j h9, he.trans (hmicro _ rfl (by omega))⟩
  · exact ⟨_, _, by rw [hu]; rfl, he.trans (hmicro _ rfl (by omega))⟩
  · exact ⟨_, _, by rw [hu]; rfl, he.trans (nextWord_eq_advance 41 _ hu)⟩

/-- A micro-step of a transfer performs the event of the pseudocode at its index, for the operands loaded at `u = 0` and
held afterwards, and advances the counter. -/
theorem transferMicro_eq_advance (d e : Byte) (s : State) (h : s.u.toNat < 42) :
    ∃ (D I : Byte) (l : Line) (v : Bool),
      (D, I) = (if s.u.toNat = 0 then (d, e) else (s.dreg, s.ireg)) ∧
      (transferEvents D I)[s.u.toNat]? = some (.drive l v) ∧
      transferMicro d e s = advance 41 (drive l v (loadOperands D I s)) := by
  by_cases h0 : s.u.toNat = 0
  · exact ⟨d, e, _, _, (if_pos h0).symm, by rw [h0]; rfl, transferMicro_start d e s h0⟩
  · obtain ⟨l, v, hev, he⟩ := transferMicro_later d e s h h0
    exact ⟨s.dreg, s.ireg, l, v, (if_neg h0).symm, hev, he⟩

/-- The state with an event appended to its trace and the lines changed as the event's row of R11 says. -/
def performed (ev : Event) (s : State) : State :=
  { s with out := (wiresAfter (wires s) ev).out, dir := (wiresAfter (wires s) ev).dir, log := ev :: s.log }

/-- A micro-step of `ENTER` performs the event of the rule at its index and advances the counter. -/
theorem enterMicro_eq_advance (s : State) (h : s.u.toNat < 9) :
    ∃ ev, enterEvents[s.u.toNat]? = some ev ∧ enterMicro s = advance 8 (performed ev s) := by
  obtain ⟨hu, e⟩ | ⟨hu, e⟩ | ⟨hu, e⟩ | ⟨hu, e⟩ | ⟨hu, e⟩ | ⟨hu, e⟩ | ⟨hu, e⟩ | ⟨hu, e⟩ | ⟨hu, e⟩ :=
    enterMicro_cases s h
  all_goals refine ⟨_, by rw [hu]; rfl, e.trans ?_⟩
  iterate 8 exact nextMicro_eq_advance 8 _ (show s.u.toNat ≠ 8 by omega)
  exact nextWord_eq_advance 8 _ hu

/-! ## The statements -/

/-- Settles O13: the nine instructions are one transfer of their operand pair. -/
theorem transferMicroStep : Obligations.TransferMicroStep := by
  intro i d e s hp hu hstart
  obtain ⟨D, I, l, v, hDI, hev, heq⟩ := transferMicro_eq_advance d e s hu
  refine ⟨D, I, l, v, hDI, hev, ?_⟩
  rw [exec_transfer i d e hp, transfer_next d e s hu hstart, heq]
  rfl

/-- Settles O31. -/
theorem enterMicroStep : Obligations.EnterMicroStep := by
  intro s hu
  obtain ⟨ev, hev, heq⟩ := enterMicro_eq_advance s hu
  exact ⟨ev, hev, ((execEnter_next_iff s _).2 ⟨hu, rfl⟩).trans (congrArg _ heq)⟩

end Sys2Proof.Machine
end

section
/-! The counter, the operand registers and the lines from one micro-step of a transfer or of an entry to the next (R21,
R22, R122, R170). -/

namespace Sys2Proof.Machine

/-! ## The counter and the operand registers after a micro-step -/

/-- A counter that is not at the last micro-step goes to the next one, and from the last one to the next word. -/
theorem advance_counter (last : Nat) (s : State) (hu : s.u.toNat ≤ last) (hlast : last < 63) (hm : s.mpc.toNat < 31) :
    (s.u.toNat < last ∧ (advance last s).mpc = s.mpc ∧ (advance last s).u.toNat = s.u.toNat + 1) ∨
    (s.u.toNat = last ∧ (advance last s).mpc.toNat = s.mpc.toNat + 1 ∧ (advance last s).u = 0#6) := by
  by_cases h : s.u.toNat = last
  · rw [← nextWord_eq_advance last s h]
    exact .inr ⟨h, toNat_mpc_succ _ hm, rfl⟩
  · rw [← nextMicro_eq_advance last s h]
    exact .inl ⟨by omega, rfl, toNat_u_succ _ (by omega)⟩

theorem transferMicro_counter (d e : Byte) (s : State) (hu : s.u.toNat < 42) (hm : s.mpc.toNat < 31) :
    (s.u.toNat < 41 ∧ (transferMicro d e s).mpc = s.mpc ∧ (transferMicro d e s).u.toNat = s.u.toNat + 1) ∨
    (s.u.toNat = 41 ∧ (transferMicro d e s).mpc.toNat = s.mpc.toNat + 1 ∧ (transferMicro d e s).u = 0#6) := by
  obtain ⟨D, I, l, v, -, -, he⟩ := transferMicro_eq_advance d e s hu
  rw [he]
  exact advance_counter 41 (drive l v (loadOperands D I s)) (Nat.le_of_lt_succ hu) (by omega) hm

theorem enterMicro_counter (s : State) (hu : s.u.toNat < 9) (hm : s.mpc.toNat < 31) :
    (s.u.toNat < 8 ∧ (enterMicro s).mpc = s.mpc ∧ (enterMicro s).u.toNat = s.u.toNat + 1) ∨
    (s.u.toNat = 8 ∧ (enterMicro s).mpc.toNat = s.mpc.toNat + 1 ∧ (enterMicro s).u = 0#6) := by
  obtain ⟨ev, -, he⟩ := enterMicro_eq_advance s hu
  rw [he]
  exact advance_counter 8 (performed ev s) (Nat.le_of_lt_succ hu) (by omega) hm

/-- The operand registers after a micro-step of a transfer (R21). -/
theorem transferMicro_operands (d e : Byte) (s : State) (hu : s.u.toNat < 42) :
    ((transferMicro d e s).dreg, (transferMicro d e s).ireg) =
      if s.u.toNat = 0 then (d, e) else (s.dreg, s.ireg) := by
  obtain ⟨D, I, l, v, hDI, -, he⟩ := transferMicro_eq_advance d e s hu
  rw [he, ← hDI]
  rfl

/-- What `ENTER` leaves unchanged besides the clock's latch (R170). -/
theorem enterMicro_frame (s : State) (hu : s.u.toNat < 9) :
    (enterMicro s).dreg = s.dreg ∧ (enterMicro s).ireg = s.ireg ∧ (enterMicro s).prog = s.prog ∧
    (enterMicro s).samples = s.samples := by
  obtain ⟨ev, -, he⟩ := enterMicro_eq_advance s hu
  rw [he]
  exact ⟨rfl, rfl, rfl, rfl⟩

/-! ## The serial lines from one micro-step of a transfer to the next (R122) -/

@[simp] theorem dinAt_zero (d : Byte) : dinAt d 0 = false := rfl
@[simp] theorem iinAt_zero (i : Byte) : iinAt i 0 = false := rfl
@[simp] theorem sclkAt_zero : sclkAt 0 = false := rfl

theorem dinAt_succ (d : Byte) (u : Nat) : dinAt d (u + 1) = if u % 4 = 0 then frameBit d (u / 4) else dinAt d u := by
  unfold dinAt
  rw [if_neg (Nat.succ_ne_zero u), Nat.add_sub_cancel]
  split
  · rfl
  · rw [if_neg (by omega), show (u - 1) / 4 = u / 4 by omega]

theorem iinAt_succ (i : Byte) (u : Nat) : iinAt i (u + 1) = if u % 4 = 1 then frameBit i (u / 4) else iinAt i u := by
  unfold iinAt
  split
  · rw [if_neg (by omega), if_pos (by omega)]
  · split
    · rw [show (u + 1 - 2) / 4 = u / 4 by omega]
    · rw [if_neg (by omega), show (u + 1 - 2) / 4 = (u - 2) / 4 by omega]

theorem sclkAt_succ (u : Nat) (hu : u < 40) :
    sclkAt (u + 1) = if u % 4 = 2 then true else if u % 4 = 3 then false else sclkAt u := by
  unfold sclkAt
  split_ifs
  · simp; omega
  · simp; omega
  · rw [Bool.eq_iff_iff]; simp; omega

/-- The latch when micro-step `u` of the transfer of `d` and `i` is next, in the middle of the fixed program. -/
def transferLatch (d i : Byte) (u : Nat) : Latch :=
  { din := dinAt d u, iin := iinAt i u, dout := false, sclk := sclkAt u, hvrst := false }

/-- The latch between two words: only the high-voltage line may be high (R34). -/
def restLatch (hvrst : Bool) : Latch := { din := false, iin := false, dout := false, sclk := false, hvrst := hvrst }

/-- In slots 0 to 9 each phase writes one line (R122). -/
theorem transferLatch_succ (d i : Byte) (u : Nat) (hu : u < 40) : transferLatch d i (u + 1) =
    { din := if u % 4 = 0 then frameBit d (u / 4) else dinAt d u
      iin := if u % 4 = 1 then frameBit i (u / 4) else iinAt i u
      dout := false
      sclk := if u % 4 = 2 then true else if u % 4 = 3 then false else sclkAt u
      hvrst := false } := by
  simp only [transferLatch, dinAt_succ, iinAt_succ, sclkAt_succ u hu]

/-- Slot 10 is a bare pulse after slot 9 (R91), so a transfer ends with all lines low (R123(d)). -/
theorem transferLatch_end (d i : Byte) : transferLatch d i 42 = restLatch false := by
  simp [transferLatch, restLatch, dinAt, iinAt, sclkAt]

/-- A micro-step takes the latch of its index to that of the next. -/
theorem transferMicro_out (d e : Byte) (s : State) (hu : s.u.toNat < 42)
    (hregs : s.u.toNat ≠ 0 → s.dreg = d ∧ s.ireg = e) (ho : s.out = transferLatch d e s.u.toNat) :
    (transferMicro d e s).out = transferLatch d e (s.u.toNat + 1) := by
  obtain ⟨h, he⟩ | ⟨j, h1, h9, h, he⟩ | ⟨j, h9, h, he⟩ | ⟨j, h9, h, he⟩ | ⟨j, h9, h, he⟩ | ⟨h, he⟩ | ⟨h, he⟩ :=
    transferMicro_cases d e s hu
  all_goals
    rw [h] at ho
    rw [he, h]
  · simp [ho, transferLatch, Latch.write, dinAt, iinAt, sclkAt]
  · obtain ⟨hd, -⟩ := hregs (by omega)
    rw [transferLatch_succ _ _ _ (by omega)]
    simp [ho, hd, transferLatch, Latch.write]
  · obtain ⟨-, hi⟩ := hregs (by omega)
    rw [transferLatch_succ _ _ _ (by omega), show (4 * j + 1) / 4 = j by omega]
    simp [ho, hi, transferLatch, Latch.write]
  · rw [transferLatch_succ _ _ _ (by omega)]
    simp [ho, transferLatch, Latch.write]
  · rw [transferLatch_succ _ _ _ (by omega)]
    simp [ho, transferLatch, Latch.write]
  · simp [ho, transferLatch, Latch.write, dinAt, iinAt, sclkAt]
  · simp [ho, transferLatch, Latch.write, dinAt, iinAt, sclkAt]

/-- The first nine micro-steps of the fixed program take the lines from those of one index to those of the next; after
the last one they are those of a finished entry (R170). -/
theorem enterMicro_lines (s : State) (hu : s.u.toNat < 9) (hd : s.dir = dirsAt 0 s.u.toNat)
    (ho : s.out = restLatch (hvrstAt 0 s.u.toNat)) :
    (enterMicro s).dir = dirsAt 0 (s.u.toNat + 1) ∧ (enterMicro s).out = restLatch (hvrstAt 0 (s.u.toNat + 1)) := by
  obtain ⟨h, e⟩ | ⟨h, e⟩ | ⟨h, e⟩ | ⟨h, e⟩ | ⟨h, e⟩ | ⟨h, e⟩ | ⟨h, e⟩ | ⟨h, e⟩ | ⟨h, e⟩ := enterMicro_cases s hu
  all_goals
    rw [h] at hd ho
    rw [e, h]
    simp only [nextMicro_dir, nextMicro_out, nextWord_dir, nextWord_out, setDirAllOut_dir, setDirAllOut_out, drive_dir,
      drive_out, delay_dir, delay_out, setDir_dir, setDir_out, hd, ho]
    exact ⟨rfl, rfl⟩

end Sys2Proof.Machine
end

section
/-! The places of the words of `PROG` (R98), and what a step of the fixed program can do. -/

namespace Sys2Proof.Machine

/-! ## Where the words of `PROG` stand (R98) -/

/-- The word of a transfer decodes to an instruction with its operand pair, whatever its name. -/
theorem operandPair_named (d e : Byte) : operandPair ((Instr.named d e).getD (.xfer d e)) = some (d, e) := by
  unfold Instr.named
  split_ifs <;> simp_all [operandPair]

theorem pairAt_of_read_xferWord (p : List ProgWord) (m : Nat) (d e : Byte)
    (h : Program.read p m = some (xferWord d e)) : pairAt p m = some (d, e) := by
  have hdec : decodeWord (xferWord d e) = .ok ((Instr.named d e).getD (.xfer d e)) := by
    simp [decodeWord, xferWord]
  simp only [pairAt, instrAt, h, hdec, Option.bind_some, Except.toOption, operandPair_named]

theorem transfer_between_1_and_14 : ∀ m < 18, (pairAt fixedProgram m).isSome = true → 1 ≤ m ∧ m ≤ 14 := by decide

theorem poll_between_5_and_15 : ∀ m < 18, Program.read fixedProgram m = some pollWord →
    5 ≤ m ∧ m ≤ 15 ∧ pairAt fixedProgram m = none ∧ microCount fixedProgram m = 1 := by decide

theorem enter_only_at_0 : ∀ m < 18, Program.read fixedProgram m = some enterWord → m = 0 := by decide

theorem exit_only_at_16 : ∀ m < 18, Program.read fixedProgram m = some exitWord → m = 16 := by decide

theorem microCount_fixedProgram_pos : ∀ m < 18, 0 < microCount fixedProgram m := by decide

theorem microCount_of_transfer (p : List ProgWord) (m : Nat) (h : (pairAt p m).isSome = true) : microCount p m = 42 :=
  if_pos h

/-- A step of the fixed program, by the place of its word. -/
theorem step_cases_fixedProgram (s t : State) (hprog : s.prog = fixedProgram) (hm : s.mpc.toNat ≤ 17)
    (h : step s = .next t) :
    (∃ d e, pairAt fixedProgram s.mpc.toNat = some (d, e) ∧ 1 ≤ s.mpc.toNat ∧ s.mpc.toNat ≤ 14 ∧ s.u.toNat < 42 ∧
      t = transferMicro d e s) ∨
    (5 ≤ s.mpc.toNat ∧ s.mpc.toNat ≤ 15 ∧ pairAt fixedProgram s.mpc.toNat = none ∧
      microCount fixedProgram s.mpc.toNat = 1 ∧ s.u.toNat = 0 ∧ t = pollMicro s) ∨
    (s.mpc.toNat = 0 ∧ s.u.toNat < 9 ∧ t = enterMicro s) ∨
    (s.mpc.toNat = 16 ∧ s.u.toNat = 0 ∧ t = exitMicro s) ∨ t = s := by
  have hlt : s.mpc.toNat < 18 := by omega
  have hread (w : ProgWord) (hf : fetch s = some w) : Program.read fixedProgram s.mpc.toNat = some w := hprog ▸ hf
  obtain ⟨d, e, hf, hu, -, rfl⟩ | ⟨hf, hu, -, -, rfl⟩ | ⟨hf, hu, rfl⟩ | ⟨hf, hu, rfl⟩ | ⟨-, rfl⟩ := step_cases s t h
  · have hp := pairAt_of_read_xferWord _ _ _ _ (hread _ hf)
    obtain ⟨h1, h14⟩ := transfer_between_1_and_14 _ hlt (by rw [hp]; rfl)
    exact .inl ⟨d, e, hp, h1, h14, hu, rfl⟩
  · obtain ⟨h5, h15, hp, hc⟩ := poll_between_5_and_15 _ hlt (hread _ hf)
    exact .inr (.inl ⟨h5, h15, hp, hc, hu, rfl⟩)
  · exact .inr (.inr (.inl ⟨enter_only_at_0 _ hlt (hread _ hf), hu, rfl⟩))
  · exact .inr (.inr (.inr (.inl ⟨exit_only_at_16 _ hlt (hread _ hf), hu, rfl⟩)))
  · exact .inr (.inr (.inr (.inr rfl)))

end Sys2Proof.Machine
end

section
/-! The invariant of the fixed program at each kind of word (R34, R122, R170), and that every step keeps it. -/

namespace Sys2Proof.Machine

/-! ## The operand pair held (R21) -/

theorem loadedPair_of_transfer (p : List ProgWord) (m u : Nat) (q : Byte × Byte) (hp : pairAt p m = some q)
    (hu : u ≠ 0) : loadedPair p m u = some q := by
  simp [loadedPair, hu, hp]

/-- At a word that is no transfer, what is held is the pair of the last one before. -/
theorem loadedPair_of_no_transfer (p : List ProgWord) (m u : Nat) (hp : pairAt p m = none) :
    loadedPair p m u = lastPair p m := by
  simp [loadedPair, hp]

theorem lastPair_succ (p : List ProgWord) (m : Nat) : lastPair p (m + 1) = (pairAt p m).or (lastPair p m) := rfl

/-- `DREG` and `IREG` hold a pair, if there is one to hold. -/
def Holds (s : State) (q : Option (Byte × Byte)) : Prop := ∀ p, q = some p → s.dreg = p.1 ∧ s.ireg = p.2

/-! ## The invariant by its latch -/

/-- The latch the invariant asks for at `(m, u)`, with `DREG` and `IREG` holding `d` and `i`. -/
def latchAt (d i : Byte) (m u : Nat) : Latch :=
  { din := (pairAt fixedProgram m).isSome && dinAt d u
    iin := (pairAt fixedProgram m).isSome && iinAt i u
    dout := false
    sclk := (pairAt fixedProgram m).isSome && sclkAt u
    hvrst := hvrstAt m u }

theorem inv_iff (s : State) : Inv s ↔
    s.prog = fixedProgram ∧ s.mpc.toNat ≤ 17 ∧ s.u.toNat < microCount fixedProgram s.mpc.toNat ∧
    s.dir = dirsAt s.mpc.toNat s.u.toNat ∧ s.out = latchAt s.dreg s.ireg s.mpc.toNat s.u.toNat ∧
    Holds s (loadedPair fixedProgram s.mpc.toNat s.u.toNat) := by
  constructor
  · intro hi
    refine ⟨hi.prog, hi.mpc, hi.u, hi.dirs, Latch.ext_read _ _ fun l => ?_, hi.regs⟩
    cases l
    · exact hi.din
    · exact hi.iin
    · exact hi.dout
    · exact hi.sclk
    · exact hi.hvrst
  · rintro ⟨hprog, hm, hu, hd, ho, hr⟩
    exact ⟨hprog, hm, hu, hd, by rw [ho]; rfl, by rw [ho]; rfl, by rw [ho]; rfl, by rw [ho]; rfl, by rw [ho]; rfl, hr⟩

/-- Between two words only the high-voltage line may be high. -/
theorem latchAt_start (d i : Byte) (m : Nat) : latchAt d i m 0 = restLatch (hvrstAt m 0) := by
  simp [latchAt, restLatch]

theorem latchAt_no_transfer (d i : Byte) (m u : Nat) (hp : pairAt fixedProgram m = none) :
    latchAt d i m u = restLatch (hvrstAt m u) := by
  simp [latchAt, restLatch, hp]

theorem hvrstAt_programming (m u : Nat) (h1 : 1 ≤ m) (h16 : m ≤ 16) : hvrstAt m u = false := by
  rw [hvrstAt, if_neg (by omega), decide_eq_false (by omega)]

theorem latchAt_transfer (d i : Byte) (m u : Nat) (hp : (pairAt fixedProgram m).isSome = true) (h1 : 1 ≤ m)
    (h16 : m ≤ 16) : latchAt d i m u = transferLatch d i u := by
  simp [latchAt, transferLatch, hp, hvrstAt_programming m u h1 h16]

theorem dirsAt_after_enter (m u : Nat) (h1 : 1 ≤ m) : dirsAt m u = readyDirs := if_neg (by omega)

/-- The invariant at the start of a word after `ENTER`. -/
theorem inv_of_wordStart (t : State) (hprog : t.prog = fixedProgram) (h1 : 1 ≤ t.mpc.toNat) (h17 : t.mpc.toNat ≤ 17)
    (hu : t.u = 0#6) (hd : t.dir = readyDirs) (ho : t.out = restLatch (hvrstAt t.mpc.toNat 0))
    (hr : Holds t (lastPair fixedProgram t.mpc.toNat)) : Inv t := by
  have hu0 : t.u.toNat = 0 := congrArg BitVec.toNat hu
  rw [inv_iff, hu0, latchAt_start, dirsAt_after_enter _ _ h1]
  exact ⟨hprog, h17, microCount_fixedProgram_pos _ (by omega), hd, ho, hr⟩

/-! ## Each kind of word keeps the invariant -/

/-- After any micro-step of a transfer the operand registers hold its pair, if they held it after the first (R21). -/
theorem transferMicro_regs (d e : Byte) (s : State) (hu : s.u.toNat < 42)
    (hregs : s.u.toNat ≠ 0 → s.dreg = d ∧ s.ireg = e) :
    (transferMicro d e s).dreg = d ∧ (transferMicro d e s).ireg = e := by
  have h := transferMicro_operands d e s hu
  split at h
  · exact Prod.mk.inj h
  · obtain ⟨rfl, rfl⟩ := hregs ‹_›
    exact Prod.mk.inj h

/-- The latch before a micro-step of a transfer is that of its own operands, also at `u = 0`, where they are not yet
loaded. -/
theorem out_of_inv_transfer (s : State) (hi : Inv s) (d e : Byte)
    (hp : pairAt fixedProgram s.mpc.toNat = some (d, e)) (h1 : 1 ≤ s.mpc.toNat) (h14 : s.mpc.toNat ≤ 14)
    (hregs : s.u.toNat ≠ 0 → s.dreg = d ∧ s.ireg = e) : s.out = transferLatch d e s.u.toNat := by
  obtain ⟨-, -, -, -, ho, -⟩ := (inv_iff s).1 hi
  rw [latchAt_transfer _ _ _ _ (by rw [hp]; rfl) h1 (by omega)] at ho
  by_cases h0 : s.u.toNat = 0
  · rw [ho, h0]
    rfl
  · obtain ⟨rfl, rfl⟩ := hregs h0
    exact ho

theorem transferMicro_keeps_inv (s : State) (hi : Inv s) (d e : Byte)
    (hp : pairAt fixedProgram s.mpc.toNat = some (d, e)) (h1 : 1 ≤ s.mpc.toNat) (h14 : s.mpc.toNat ≤ 14)
    (hu : s.u.toNat < 42) : Inv (transferMicro d e s) := by
  have hsome : (pairAt fixedProgram s.mpc.toNat).isSome = true := by rw [hp]; rfl
  have hheld : s.u.toNat ≠ 0 → s.dreg = d ∧ s.ireg = e :=
    fun h0 => hi.regs (d, e) (loadedPair_of_transfer _ _ _ _ hp h0)
  have hout := transferMicro_out d e s hu hheld (out_of_inv_transfer s hi d e hp h1 h14 hheld)
  have hregs := transferMicro_regs d e s hu hheld
  have hholds : Holds (transferMicro d e s) (some (d, e)) := by
    rintro _ ⟨⟩
    exact hregs
  obtain ⟨hdir, -, -, hprog, -⟩ := transferMicro_frame d e s hu
  rw [hi.prog] at hprog
  rw [hi.dirs, dirsAt_after_enter _ _ h1] at hdir
  obtain ⟨hlt, hm', hu'⟩ | ⟨h41, hm', hu'⟩ := transferMicro_counter d e s hu (by omega)
  · rw [inv_iff, hm', hu', hregs.1, hregs.2, latchAt_transfer _ _ _ _ hsome h1 (by omega),
      dirsAt_after_enter _ _ h1, microCount_of_transfer _ _ hsome, loadedPair_of_transfer _ _ _ _ hp (by omega)]
    exact ⟨hprog, hi.mpc, by omega, hdir, hout, hholds⟩
  · refine inv_of_wordStart _ hprog (by omega) (by omega) hu' hdir ?_ ?_
    · rw [hout, h41, transferLatch_end, hvrstAt_programming _ _ (by omega) (by omega)]
    · rw [hm', lastPair_succ, hp]
      exact hholds

/-- A word that is no transfer leaves the operand registers holding the last pair. -/
theorem holds_lastPair_succ (s : State) (hi : Inv s) (hp : pairAt fixedProgram s.mpc.toNat = none) :
    Holds s (lastPair fixedProgram (s.mpc.toNat + 1)) := by
  have h : Holds s (loadedPair fixedProgram s.mpc.toNat s.u.toNat) := hi.regs
  rw [loadedPair_of_no_transfer _ _ _ hp] at h
  rwa [lastPair_succ, hp, Option.none_or]

/-- The lines at the first micro-step of a word (R34). -/
theorem out_of_inv_start (s : State) (hi : Inv s) (hu : s.u.toNat = 0) :
    s.out = restLatch (hvrstAt s.mpc.toNat 0) := by
  obtain ⟨-, -, -, -, ho, -⟩ := (inv_iff s).1 hi
  rwa [hu, latchAt_start] at ho

theorem pollMicro_keeps_inv (s : State) (hi : Inv s) (h5 : 5 ≤ s.mpc.toNat) (h15 : s.mpc.toNat ≤ 15)
    (hp : pairAt fixedProgram s.mpc.toNat = none) (hu : s.u.toNat = 0) : Inv (pollMicro s) := by
  obtain ⟨-, e⟩ | ⟨-, e⟩ := pollMicro_cases s <;> rw [e]
  · have hm : (nextWord (sample s)).mpc.toNat = s.mpc.toNat + 1 := toNat_mpc_succ s.mpc (by omega)
    refine inv_of_wordStart _ hi.prog (by omega) (by omega) rfl ?_ ?_ ?_
    · exact hi.dirs.trans (dirsAt_after_enter _ _ (by omega))
    · rw [hm, hvrstAt_programming _ _ (by omega) (by omega), ← hvrstAt_programming s.mpc.toNat 0 (by omega) (by omega)]
      exact out_of_inv_start s hi hu
    · rw [hm]
      exact holds_lastPair_succ s hi hp
  · exact (inv_iff (sample s)).2 ((inv_iff s).1 hi)

theorem exitMicro_keeps_inv (s : State) (hi : Inv s) (h16 : s.mpc.toNat = 16) (hu : s.u.toNat = 0) :
    Inv (exitMicro s) := by
  have hm : (exitMicro s).mpc.toNat = 17 := (toNat_mpc_succ s.mpc (by omega)).trans (by omega)
  refine inv_of_wordStart _ hi.prog (by omega) (by omega) rfl ?_ ?_ ?_
  · exact hi.dirs.trans (dirsAt_after_enter _ _ (by omega))
  · have hout : (exitMicro s).out = s.out.write .hvrst true := rfl
    rw [hout, out_of_inv_start s hi hu, hm]
    rfl
  · have hlast := holds_lastPair_succ s hi (by rw [h16]; decide)
    rw [h16] at hlast
    rw [hm]
    exact hlast

theorem enterMicro_keeps_inv (s : State) (hi : Inv s) (h0 : s.mpc.toNat = 0) (hu : s.u.toNat < 9) :
    Inv (enterMicro s) := by
  have hp : pairAt fixedProgram 0 = none := by decide
  obtain ⟨hprog, -, -, hd, ho, hr⟩ := (inv_iff s).1 hi
  rw [h0] at hd ho hr
  rw [latchAt_no_transfer _ _ _ _ hp] at ho
  rw [loadedPair_of_no_transfer _ _ _ hp] at hr
  obtain ⟨hd', ho'⟩ := enterMicro_lines s hu hd ho
  obtain ⟨hdreg, hireg, hprog', -⟩ := enterMicro_frame s hu
  have hholds : Holds (enterMicro s) (lastPair fixedProgram 0) := by rintro _ ⟨⟩
  obtain ⟨hlt, hm', hu'⟩ | ⟨h8, hm', hu'⟩ := enterMicro_counter s hu (by omega)
  · rw [inv_iff, hm', hu', h0, latchAt_no_transfer _ _ _ _ hp, loadedPair_of_no_transfer _ _ _ hp,
      show microCount fixedProgram 0 = 9 by decide]
    exact ⟨hprog'.trans hprog, by omega, by omega, hd', ho', hholds⟩
  · rw [h0] at hm'
    rw [h8] at hd' ho'
    refine inv_of_wordStart _ (hprog'.trans hprog) (by omega) (by omega) hu' hd' ?_ ?_
    · rw [ho', hm']
      rfl
    · rw [hm', lastPair_succ, hp]
      exact hholds

/-! ## The statements -/

/-- Settles O46: each kind of word keeps the invariant, and the place of the word in `PROG` says which kind it is. -/
theorem stepKeepsInvariant : Obligations.StepKeepsInvariant := by
  intro s t hi h
  obtain ⟨d, e, hp, h1, h14, hu, rfl⟩ | ⟨h5, h15, hp, -, hu, rfl⟩ | ⟨h0, hu, rfl⟩ | ⟨h16, hu, rfl⟩ | rfl :=
    step_cases_fixedProgram s t hi.prog hi.mpc h
  · exact transferMicro_keeps_inv s hi d e hp h1 h14 hu
  · exact pollMicro_keeps_inv s hi h5 h15 hp hu
  · exact enterMicro_keeps_inv s hi h0 hu
  · exact exitMicro_keeps_inv s hi h16 hu
  · exact hi

/-- Settles O45: at reset the counter is at `ENTER`, no line but the high-voltage line is high and no pair is held. -/
theorem invariantAtReset : Obligations.InvariantAtReset :=
  (inv_iff State.reset).2 ⟨rfl, by decide, by decide, rfl, rfl, by rintro _ ⟨⟩⟩

/-- Settles O49. -/
theorem counterNeverDecreases : Obligations.CounterNeverDecreases := by
  intro s t hi h
  obtain ⟨d, e, hp, h1, h14, hu, rfl⟩ | ⟨h5, h15, -, hc, hu, rfl⟩ | ⟨h0, hu, rfl⟩ | ⟨h16, hu, rfl⟩ | rfl :=
    step_cases_fixedProgram s t hi.prog hi.mpc h
  · rw [microCount_of_transfer _ _ (by rw [hp]; rfl)]
    obtain ⟨-, hm', hu'⟩ | ⟨h41, hm', hu'⟩ := transferMicro_counter d e s hu (by omega)
    · exact .inl ⟨hm', .inr hu'⟩
    · exact .inr ⟨hm', hu', by omega⟩
  · obtain ⟨-, e⟩ | ⟨-, e⟩ := pollMicro_cases s <;> rw [e]
    · exact .inr ⟨toNat_mpc_succ s.mpc (by omega), rfl, by omega⟩
    · exact .inl ⟨rfl, .inl rfl⟩
  · rw [h0, show microCount fixedProgram 0 = 9 by decide]
    obtain ⟨-, hm', hu'⟩ | ⟨h8, hm', hu'⟩ := enterMicro_counter s hu (by omega)
    · exact .inl ⟨hm', .inr hu'⟩
    · exact .inr ⟨by omega, hu', by omega⟩
  · have hc : microCount fixedProgram 16 = 1 := by decide
    exact .inr ⟨toNat_mpc_succ s.mpc (by omega), rfl, by rw [hu, h16, hc]⟩
  · exact .inl ⟨rfl, .inl rfl⟩

/-- Settles O47, from the latch and the directions of the invariant at a word's first micro-step. -/
theorem lineStateAtBoundaries : Obligations.LineStateAtBoundaries := by
  intro s hi
  have hrest (hu : s.u = 0#6) : s.out = restLatch (hvrstAt s.mpc.toNat 0) :=
    out_of_inv_start s hi (congrArg BitVec.toNat hu)
  refine ⟨fun hu => by rw [hrest hu]; rfl, fun hu h1 => ?_, ?_, hi.dout⟩
  · exact ⟨by rw [hrest hu]; rfl, by rw [hrest hu]; rfl, hi.dirs.trans (dirsAt_after_enter _ _ h1)⟩
  · have hm0 : s.mpc = 0#5 ↔ s.mpc.toNat = 0 := BitVec.toNat_inj.symm
    have hm := hi.mpc
    rw [hi.hvrst, hvrstAt, hm0]
    split
    · simp; omega
    · simp; omega

end Sys2Proof.Machine
end

section
/-! Where an instruction stops (R203), everything an instruction can do when it does not stop, and what follows for the
samples, the data-out latch and the operand registers in any program (R21, R25, R151(g)). -/

namespace Sys2Proof.Machine

/-! ## Stops (R203) -/

theorem direction_ne_output_iff (d : Direction) : d ≠ .output ↔ d = .input := by
  cases d <;> decide

/-- When one of the three serial lines is no output. -/
theorem DirReg.serialOut_eq_false_iff (r : DirReg) :
    r.serialOut = false ↔ r.din = .input ∨ r.iin = .input ∨ r.sclk = .input := by
  rw [← Bool.not_eq_true, DirReg.serialOut_iff]
  simp only [not_and_or, direction_ne_output_iff]

theorem transfer_noSuchMicroStep (d e : Byte) (s : State) (hu : 42 ≤ s.u.toNat) :
    transfer d e s = .refused .noSuchMicroStep := if_pos hu

theorem transfer_withClockHigh (d e : Byte) (s : State) (hu : s.u.toNat = 0) (hc : s.out.sclk = true) :
    transfer d e s = .refused .transferWithClockHigh := by
  simp [transfer, hu, hc]

theorem transfer_linesNotConfigured (d e : Byte) (s : State) (hu : s.u.toNat = 0) (hc : s.out.sclk = false)
    (hd : s.dir.serialOut = false) : transfer d e s = .refused .linesNotConfigured := by
  simp [transfer, hu, hc, hd]

/-- The counter's micro part as a number and as six bits. -/
theorem u_ne_zero_iff (s : State) : s.u ≠ 0#6 ↔ s.u.toNat ≠ 0 := not_congr BitVec.toNat_inj.symm

theorem execPoll_noSuchMicroStep (s : State) (hu : s.u.toNat ≠ 0) : execPoll s = .refused .noSuchMicroStep := if_pos hu

theorem execPoll_sampleWhileDriven (s : State) (hu : s.u.toNat = 0) (hd : s.dir.dout = .output) :
    execPoll s = .refused .sampleWhileDriven := by
  simp [execPoll, hu, hd]

theorem execPoll_linesNotConfigured (s : State) (hu : s.u.toNat = 0) (hd : s.dir.dout = .input)
    (hs : s.dir.serialOut = false) : execPoll s = .refused .linesNotConfigured := by
  simp [execPoll, hu, hd, hs]

/-! ## Everything an instruction can do -/

/-- When an instruction, macros included, answers a next state, and which. -/
theorem exec_cases (i : Instr) (s t : State) (h : exec i s = .next t) :
    (∃ d e, operandPair i = some (d, e) ∧ s.u.toNat < 42 ∧ t = transferMicro d e s) ∨
    (i = .poll ∧ t = pollMicro s) ∨ (i = .enter ∧ s.u.toNat < 9 ∧ t = enterMicro s) ∨
    (i = .exit ∧ t = exitMicro s) ∨ (i = .halt ∧ t = s) ∨
    (∃ f v, fuseOperand i = some (f, v) ∧ s.u = 0#6 ∧ t = pollMicro (fuseTransfers f v s)) ∨
    (i = .session ∧ s.u = 0#6 ∧ t = sessionRun s) := by
  have hu0 (h0 : s.u.toNat = 0) : s.u = 0#6 := BitVec.eq_of_toNat_eq h0
  cases hp : operandPair i with
  | some q =>
    rw [exec_transfer i q.1 q.2 hp, transfer_next_iff] at h
    obtain ⟨hu, -, ht⟩ := h
    exact .inl ⟨q.1, q.2, rfl, hu, ht⟩
  | none =>
    refine .inr ?_
    cases hf : fuseOperand i with
    | some q =>
      rw [exec_fuseWrite i q.1 q.2 hf, fuseWrite_next_iff] at h
      obtain ⟨hu, -, -, -, ht⟩ := h
      exact .inr (.inr (.inr (.inr (.inl ⟨q.1, q.2, rfl, hu0 hu, ht⟩))))
    | none =>
      cases i <;> simp only [operandPair, fuseOperand, reduceCtorEq] at hp hf
      case poll =>
        obtain ⟨-, -, -, ht⟩ := (execPoll_next_iff s t).1 h
        exact .inl ⟨rfl, ht⟩
      case enter =>
        obtain ⟨hu, ht⟩ := (execEnter_next_iff s t).1 h
        exact .inr (.inl ⟨rfl, hu, ht⟩)
      case exit =>
        obtain ⟨-, ht⟩ := (execExit_next_iff s t).1 h
        exact .inr (.inr (.inl ⟨rfl, ht⟩))
      case halt =>
        cases h
        exact .inr (.inr (.inr (.inl ⟨rfl, rfl⟩)))
      case session =>
        obtain ⟨hu, -, ht⟩ := (execSession_next_iff s t).1 h
        exact .inr (.inr (.inr (.inr (.inr ⟨rfl, hu0 hu, ht⟩))))

theorem pollMicro_out (s : State) : (pollMicro s).out = s.out := by
  obtain ⟨-, -, ho, -⟩ := pollMicro_frame s
  exact ho

/-- `ENTER` writes data-out once, low (R170). -/
theorem enterMicro_dout_low (s : State) (hu : s.u.toNat < 9) (hlow : s.out.dout = false) :
    (enterMicro s).out.dout = false := by
  obtain ⟨-, e⟩ | ⟨-, e⟩ | ⟨-, e⟩ | ⟨-, e⟩ | ⟨-, e⟩ | ⟨-, e⟩ | ⟨-, e⟩ | ⟨-, e⟩ | ⟨-, e⟩ := enterMicro_cases s hu
  all_goals
    rw [e]
    simp [Latch.write, hlow]

/-! ## What a micro-step appends to the trace -/

theorem transferMicro_log (d e : Byte) (s : State) (hu : s.u.toNat < 42) :
    ∃ l v, (transferMicro d e s).log = .drive l v :: s.log := by
  obtain ⟨D, I, l, v, -, -, he⟩ := transferMicro_eq_advance d e s hu
  exact ⟨l, v, by rw [he]; rfl⟩

theorem enterMicro_log (s : State) (hu : s.u.toNat < 9) : ∃ ev ∈ enterEvents, (enterMicro s).log = ev :: s.log := by
  obtain ⟨ev, hev, he⟩ := enterMicro_eq_advance s hu
  exact ⟨ev, List.mem_of_getElem? hev, by rw [he]; rfl⟩

/-- `ENTER` takes no sample (R170). -/
theorem sample_not_mem_enterEvents (b : Bool) : .sample b ∉ enterEvents := by
  simp [enterEvents]

/-! ## The statements -/

/-- Settles O14: the nine instructions are one transfer of their operand pair. -/
theorem transferStops : Obligations.TransferStops := by
  intro i d e s hp
  rw [exec_transfer i d e hp]
  exact ⟨transfer_noSuchMicroStep d e s, transfer_withClockHigh d e s,
    fun hu hc hd => transfer_linesNotConfigured d e s hu hc ((DirReg.serialOut_eq_false_iff _).2 hd)⟩

/-- Settles O25. -/
theorem pollStops : Obligations.PollStops := by
  intro s
  have hu0 (hu : s.u = 0#6) : s.u.toNat = 0 := congrArg BitVec.toNat hu
  exact ⟨fun hu => execPoll_noSuchMicroStep s ((u_ne_zero_iff s).1 hu),
    fun hu hd => execPoll_sampleWhileDriven s (hu0 hu) hd,
    fun hu hd hs => execPoll_linesNotConfigured s (hu0 hu) hd ((DirReg.serialOut_eq_false_iff _).2 hs)⟩

/-- Settles O38: the first test of each meaning. -/
theorem enterExitStops : Obligations.EnterExitStops :=
  fun s => ⟨fun hu => if_pos hu, fun hu => if_pos ((u_ne_zero_iff s).1 hu)⟩

/-- Settles O53: data-out is written by `ENTER` and by a session's entry, low. -/
theorem dataOutNeverDrivenHigh : Obligations.DataOutNeverDrivenHigh := by
  intro i s t h hlow
  obtain ⟨d, e, -, hu, rfl⟩ | ⟨-, rfl⟩ | ⟨-, hu, rfl⟩ | ⟨-, rfl⟩ | ⟨-, rfl⟩ | ⟨f, v, -, hu, rfl⟩ | ⟨-, hu, rfl⟩ :=
    exec_cases i s t h
  · obtain ⟨-, hdout, -⟩ := transferMicro_frame d e s hu
    exact hdout.trans hlow
  · rwa [pollMicro_out]
  · exact enterMicro_dout_low s hu hlow
  · exact hlow
  · exact hlow
  · rwa [pollMicro_out, fuseTransfers_eq f v s hu]
  · rw [sessionRun_eq s hu]

/-- Settles O26: only `POLL` samples, and it refuses while data-out is driven. -/
theorem sampleOnlyWhileNotDriven : Obligations.SampleOnlyWhileNotDriven := by
  intro s t b h hlog
  obtain ⟨d, e, -, hu, -, rfl⟩ | ⟨-, -, hd, -, rfl⟩ | ⟨-, hu, rfl⟩ | ⟨-, -, rfl⟩ | ⟨-, rfl⟩ := step_cases s t h
  · obtain ⟨l, v, hdrive⟩ := transferMicro_log d e s hu
    cases hdrive.symm.trans hlog
  · simp [pin, pinOf, driven, hd]
  · obtain ⟨ev, hmem, hev⟩ := enterMicro_log s hu
    obtain ⟨rfl, -⟩ := List.cons.inj (hev.symm.trans hlog)
    exact absurd hmem (sample_not_mem_enterEvents b)
  · cases (exitMicro_performs s).log_eq.symm.trans hlog
  · exact absurd hlog (List.cons_ne_self _ _).symm

/-- Settles O55: of the micro-steps, only the first of a transfer writes the operand registers. -/
theorem operandRegistersLoadedAtTransferStart : Obligations.OperandRegistersLoadedAtTransferStart := by
  intro s t h hne
  have hsame (hd : t.dreg = s.dreg) (hi : t.ireg = s.ireg) : False := hne.elim (· hd) (· hi)
  obtain ⟨d, e, hf, hu, -, rfl⟩ | ⟨-, -, -, -, rfl⟩ | ⟨-, hu, rfl⟩ | ⟨-, -, rfl⟩ | ⟨-, rfl⟩ := step_cases s t h
  · have hregs := transferMicro_operands d e s hu
    split at hregs
    · obtain ⟨hd, hi⟩ := Prod.mk.inj hregs
      exact ⟨BitVec.eq_of_toNat_eq ‹_›, d, e, hf, hd, hi⟩
    · obtain ⟨hd, hi⟩ := Prod.mk.inj hregs
      exact (hsame hd hi).elim
  · obtain ⟨hd, hi, -⟩ := pollMicro_frame s
    exact (hsame hd hi).elim
  · obtain ⟨hd, hi, -⟩ := enterMicro_frame s hu
    exact (hsame hd hi).elim
  · exact (hsame rfl rfl).elim
  · exact (hsame rfl rfl).elim

end Sys2Proof.Machine
end

section
/-! The functions of the state: session state, `done`, the packed latch and directions, the pins and the level view (R25
to R29), and their values at reset, during entry and at exit (R31, R170, R171, R220). -/

namespace Sys2Proof.Machine

/-! ## The session state and `done` (R28, R29) -/

theorem sess_idle (s : State) (h : s.mpc.toNat = 0) : sess s = .idle := if_pos h

theorem sess_programming (s : State) (h1 : 1 ≤ s.mpc.toNat) (h16 : s.mpc.toNat ≤ 16) : sess s = .programming := by
  rw [sess, if_neg (by omega), if_pos h16]

theorem sess_done (s : State) (h : 17 ≤ s.mpc.toNat) : sess s = .done := by
  rw [sess, if_neg (by omega), if_neg (by omega)]

theorem done_iff (s : State) : done s = true ↔ s.mpc.toNat = 17 := beq_iff_eq.trans BitVec.toNat_inj.symm

/-! ## The packed words and the pins (R25 to R27) -/

/-- The bit numbers of R25. -/
theorem getLsbD_outWord (o : Latch) :
    (outWord o).getLsbD 0 = o.din ∧ (outWord o).getLsbD 1 = o.iin ∧ (outWord o).getLsbD 2 = o.dout ∧
    (outWord o).getLsbD 3 = o.sclk ∧ (outWord o).getLsbD 4 = o.hvrst := by
  simp only [outWord, BitVec.getLsbD_append, BitVec.getLsbD_ofBool]
  simp

/-- The bit numbers of R26. -/
theorem getLsbD_dirWord (r : DirReg) :
    (dirWord r).getLsbD 0 = dirBit r.din ∧ (dirWord r).getLsbD 1 = dirBit r.iin ∧
    (dirWord r).getLsbD 2 = dirBit r.dout ∧ (dirWord r).getLsbD 3 = dirBit r.sclk := by
  simp only [dirWord, BitVec.getLsbD_append, BitVec.getLsbD_ofBool]
  simp

/-- A direction bit is 1 exactly for an output (R26). -/
theorem dirBit_iff (d : Direction) : dirBit d = true ↔ d = .output := beq_iff_eq

theorem driven_of_input (d : Direction) (b : Bool) (h : d = .input) : driven d b = .z := h ▸ rfl

theorem driven_of_output (d : Direction) (b : Bool) (h : d = .output) : driven d b = .level b := h ▸ rfl

/-- The level view after entry, between two words (R27, R34). -/
theorem levelView_ready (s : State) (b : Bool) (ho : s.out = restLatch b) (hd : s.dir = readyDirs) :
    levelView s = ⟨.level false, .level false, .z, .level false, .level b⟩ := by
  rw [levelView, ho, hd]
  rfl

/-! ## The statements -/

/-- Settles O58. -/
theorem sessionStateAndDone : Obligations.SessionStateAndDone :=
  fun s _ => ⟨sess_idle s, sess_programming s, fun h => sess_done s (by omega), done_iff s⟩

/-- Settles O59. -/
theorem latchDirectionsAndPins : Obligations.LatchDirectionsAndPins := by
  intro s
  obtain ⟨o0, o1, o2, o3, o4⟩ := getLsbD_outWord s.out
  obtain ⟨d0, d1, d2, d3⟩ := getLsbD_dirWord s.dir
  rw [d0, d1, d2, d3]
  exact ⟨o0, o1, o2, o3, o4, dirBit_iff _, dirBit_iff _, dirBit_iff _, dirBit_iff _, rfl,
    driven_of_input _ _, driven_of_output _ _, driven_of_input _ _, driven_of_output _ _,
    driven_of_input _ _, driven_of_output _ _, driven_of_input _ _, driven_of_output _ _⟩

/-- Settles O43, by evaluation of the one state. -/
theorem resetState : Obligations.ResetState := ⟨rfl, rfl, rfl, rfl, rfl, rfl, rfl, rfl, rfl⟩

/-- Settles O44: power-on reset is the reset state with the program and the sample index kept. -/
theorem powerOnResetFromAnywhere : Obligations.PowerOnResetFromAnywhere :=
  fun _ => ⟨rfl, rfl, rfl, rfl, rfl, rfl, rfl, rfl, rfl, rfl⟩

/-- Settles O33: the ten rows of the entry by running the steps from reset; the exit from what the invariant says of the
lines at its word. -/
theorem entryAndExitLevelViews : Obligations.EntryAndExitLevelViews := by
  refine ⟨?_, fun s hi h16 => ?_⟩
  · simp only [List.forall_mem_cons, List.not_mem_nil, false_implies, implies_true, and_true]
    refine ⟨?_, ?_, ?_, ?_, ?_, ?_, ?_, ?_, ?_, ?_⟩ <;> exact ⟨_, rfl, rfl, rfl, rfl, rfl⟩
  · have hm : s.mpc.toNat = 16 := congrArg BitVec.toNat h16
    have hu : s.u.toNat < microCount fixedProgram 16 := hm ▸ hi.u
    have hu0 : s.u.toNat = 0 := Nat.lt_one_iff.1 (hu.trans_eq (by decide))
    have hd : s.dir = readyDirs := hi.dirs.trans (dirsAt_after_enter _ _ (by omega))
    have ho : s.out = restLatch false := (out_of_inv_start s hi hu0).trans
      (congrArg restLatch (hvrstAt_programming _ _ (by omega) (by omega)))
    exact ⟨levelView_ready s false ho hd, exitMicro s, (execExit_next_iff s _).2 ⟨hu0, rfl⟩,
      (exitMicro_performs s).log_eq, levelView_ready (exitMicro s) true (congrArg (·.write .hvrst true) ho) hd⟩

end Sys2Proof.Machine
end

section
/-! Program space (R60, R61, R77): what a word placed at `mpc` changes, that no instruction writes program space, and
what a session leaves of it and of the lines. -/

namespace Sys2Proof.Machine

/-! ## A placed word (log entry 1) -/

/-- One word of 19 bits is its own row, in either order of words. -/
theorem tableWords_one (w : ProgWord) : tableWords 24 w.toNat = [w] := by
  have hsplit : splitWords (24 / 19) w.toNat = [w] := by simp [splitWords]
  simp [tableWords, hsplit]

theorem startsAfterEntry_one (w : ProgWord) (i : Instr) (h : decodeWord w = .ok i) :
    startsAfterEntry [w] = needsEntry i := by
  simp [startsAfterEntry, h, Except.toOption]

/-- The state with one word written at `mpc` and the counter at its first micro-step, the lines as they were. -/
def writeWord (w : ProgWord) (s : State) : State := { s with prog := s.prog.set s.mpc.toNat w, u := 0 }

/-- Placing one word writes it at `mpc`; the lines are those of the launch premise if it relies on a finished entry. -/
theorem withFetchWord_one (s : State) (w : ProgWord) : s.withFetchWord 24 w.toNat =
    if startsAfterEntry [w] then launch (writeWord w s) else writeWord w s := by
  rw [State.withFetchWord, tableWords_one]
  rfl

/-- Whether the lines are launched or not, everything else is as the write leaves it. -/
theorem withFetchWord_one_frame (s : State) (w : ProgWord) :
    (s.withFetchWord 24 w.toNat).prog = s.prog.set s.mpc.toNat w ∧ (s.withFetchWord 24 w.toNat).u = 0#6 ∧
    (s.withFetchWord 24 w.toNat).mpc = s.mpc ∧ (s.withFetchWord 24 w.toNat).dreg = s.dreg ∧
    (s.withFetchWord 24 w.toNat).ireg = s.ireg := by
  rw [withFetchWord_one]
  split <;> exact ⟨rfl, rfl, rfl, rfl, rfl⟩

theorem Program.read_set_same (p : List ProgWord) (a : Nat) (w : ProgWord) (hp : Program.wf p = true) (ha : a < 18) :
    Program.read (p.set a w) a = some w := by
  have hlen : p.length = 18 := beq_iff_eq.1 hp
  exact (if_pos ha).trans (List.getElem?_set_self (by omega))

theorem Program.read_set_other (p : List ProgWord) (a b : Nat) (w : ProgWord) (h : b ≠ a) :
    Program.read (p.set a w) b = Program.read p b := by
  rw [Program.read, Program.read, List.getElem?_set_ne h.symm]

theorem Program.wf_set (p : List ProgWord) (a : Nat) (w : ProgWord) : Program.wf (p.set a w) = Program.wf p := by
  rw [Program.wf, Program.wf, List.length_set]

/-! ## No instruction writes program space (R61, R77) -/

theorem pollMicro_prog (s : State) : (pollMicro s).prog = s.prog := by
  obtain ⟨-, -, -, -, hprog, -⟩ := pollMicro_frame s
  exact hprog

theorem exec_keeps_prog (i : Instr) (s t : State) (h : exec i s = .next t) : t.prog = s.prog := by
  obtain ⟨d, e, -, hu, rfl⟩ | ⟨-, rfl⟩ | ⟨-, hu, rfl⟩ | ⟨-, rfl⟩ | ⟨-, rfl⟩ | ⟨f, v, -, hu, rfl⟩ | ⟨-, hu, rfl⟩ :=
    exec_cases i s t h
  · obtain ⟨-, -, -, hprog, -⟩ := transferMicro_frame d e s hu
    exact hprog
  · exact pollMicro_prog s
  · obtain ⟨-, -, hprog, -⟩ := enterMicro_frame s hu
    exact hprog
  · rfl
  · rfl
  · rw [pollMicro_prog, fuseTransfers_eq f v s hu]
  · rw [sessionRun_eq s hu]

/-! ## The statements -/

/-- Settles O12: placing one word is one write to the list of words, and `startsAfterEntry` decides about the lines. -/
theorem placedWordIsFetched : Obligations.PlacedWordIsFetched := by
  intro s w hwf hm
  obtain ⟨hprog, hu, hmpc, hdreg, hireg⟩ := withFetchWord_one_frame s w
  refine ⟨?_, hu, ?_, fun a ha => ?_, hmpc, hdreg, hireg, fun i hi hn => ?_, fun i hi hn => ?_⟩
  · rw [fetch, hprog, hmpc]
    exact Program.read_set_same s.prog s.mpc.toNat w hwf hm
  · rw [hprog, Program.wf_set, hwf]
  · rw [hprog, Program.read_set_other _ _ _ _ ha]
  · rw [withFetchWord_one, startsAfterEntry_one w i hi, hn]
    exact ⟨rfl, rfl⟩
  · rw [withFetchWord_one, startsAfterEntry_one w i hi, hn]
    exact ⟨rfl, rfl⟩

/-- Settles O50: an instruction that answers a next state leaves the list of words as it is. -/
theorem programSpaceNeverWritten : Obligations.ProgramSpaceNeverWritten := by
  intro i s t h
  rw [exec_keeps_prog i s t h]
  exact ⟨fun _ => rfl, rfl⟩

/-- Settles O41, from what a whole session leaves (R173). -/
theorem sessionFrame : Obligations.SessionFrame := by
  intro s t h
  have hprog := exec_keeps_prog .session s t h
  obtain ⟨hu, -, rfl⟩ := (execSession_next_iff s t).1 h
  refine ⟨?_, ?_, fun a => by rw [hprog]⟩
  · rw [sessionRun_eq s (BitVec.eq_of_toNat_eq hu)]
  · rw [sessionRun_eq s (BitVec.eq_of_toNat_eq hu)]
    rfl

end Sys2Proof.Machine
end

section
/-! Which line the event of a micro-step reaches (R62, R74), and that the two serial data lines are written only while
the clock is low (R123(c), R225). -/

namespace Sys2Proof.Machine

/-! ## The event of an instruction (R62) -/

/-- A micro-step of a transfer drives one of the three serial lines (R122). -/
theorem transferMicro_event (d e : Byte) (s : State) (hu : s.u.toNat < 42) :
    ∃ l v, (transferMicro d e s).log = .drive l v :: s.log ∧ (l = .din ∨ l = .iin ∨ l = .sclk) := by
  obtain ⟨-, he⟩ | ⟨j, -, -, -, he⟩ | ⟨j, -, -, he⟩ | ⟨j, -, -, he⟩ | ⟨j, -, -, he⟩ | ⟨-, he⟩ | ⟨-, he⟩ :=
    transferMicro_cases d e s hu
  all_goals exact ⟨_, _, congrArg State.log he, by decide⟩

theorem fuseEvents_ne_nil (f : Fuse) (v : Byte) : fuseEvents f v ≠ [] := by
  simp [fuseEvents, fuseCalls, transferEvents]

theorem pollMicro_log (s : State) : (pollMicro s).log = .sample (answer s) :: s.log :=
  (pollMicro_performs s).log_eq

/-- A fuse write sends a transfer before its sample, so it appends more than one event (R152). -/
theorem fuseTransfers_log_ne (f : Fuse) (v : Byte) (s : State) (hu : s.u = 0#6) : (fuseTransfers f v s).log ≠ s.log := by
  rw [fuseTransfers_eq f v s hu]
  simp [fuseEvents_ne_nil]

theorem nine_le_length_sessionEvents (b₁ b₂ b₃ : Bool) : 9 ≤ (sessionEvents b₁ b₂ b₃).length := by
  have henter : enterEvents.length = 9 := rfl
  simp only [sessionEvents, List.length_append, henter]
  omega

/-- A session performs a whole entry, so it appends more than one event (R173). -/
theorem sessionRun_log_ne (s : State) (hu : s.u = 0#6) (ev : Event) : (sessionRun s).log ≠ ev :: s.log := by
  intro h
  rw [sessionRun_eq s hu] at h
  have hone := congrArg List.length (List.append_cancel_right (bs := s.log) (cs := [ev]) h)
  rw [List.length_reverse, List.length_singleton] at hone
  have hnine := nine_le_length_sessionEvents (Config.doutLevel s.samples) (Config.doutLevel (s.samples + 1))
    (Config.doutLevel (s.samples + 2))
  omega

/-- What the events of `ENTER` leave alone (R170): the clock, data-out but to drive it low and to turn it round, and the
samples. -/
theorem enterEvents_access : ∀ ev ∈ enterEvents,
    (∀ v, ev ≠ .drive .sclk v) ∧ (∀ v, ev = .drive .dout v → v = false) ∧
    (∀ l d, ev = .setDir l d → l = .dout ∧ d = .input) ∧ ∀ b, ev ≠ .sample b := by
  simp [enterEvents]

/-- The event of an instruction that appends one: which of its own it can be. -/
theorem exec_event (i : Instr) (s t : State) (ev : Event) (h : exec i s = .next t) (hlog : t.log = ev :: s.log) :
    ((operandPair i).isSome = true ∧ ∃ l v, ev = .drive l v ∧ (l = .din ∨ l = .iin ∨ l = .sclk)) ∨
    (i = .poll ∧ ∃ b, ev = .sample b) ∨ (i = .enter ∧ ev ∈ enterEvents) ∨ (i = .exit ∧ ev = .drive .hvrst true) := by
  have hev {ev' : Event} (h' : t.log = ev' :: s.log) : ev = ev' := (List.cons.inj (hlog.symm.trans h')).1
  obtain ⟨d, e, hp, hu, rfl⟩ | ⟨rfl, rfl⟩ | ⟨rfl, hu, rfl⟩ | ⟨rfl, rfl⟩ | ⟨-, rfl⟩ | ⟨f, v, -, hu, rfl⟩ | ⟨-, hu, rfl⟩ :=
    exec_cases i s t h
  · obtain ⟨l, v, hl, hserial⟩ := transferMicro_event d e s hu
    exact .inl ⟨by rw [hp]; rfl, l, v, hev hl, hserial⟩
  · exact .inr (.inl ⟨rfl, _, hev (pollMicro_log s)⟩)
  · obtain ⟨ev', hmem, hl⟩ := enterMicro_log s hu
    exact .inr (.inr (.inl ⟨rfl, hev hl ▸ hmem⟩))
  · exact .inr (.inr (.inr ⟨rfl, hev (exitMicro_performs s).log_eq⟩))
  · exact absurd hlog (List.cons_ne_self _ _).symm
  · rw [pollMicro_log] at hlog
    exact absurd (List.cons.inj hlog).2 (fuseTransfers_log_ne f v s hu)
  · exact absurd hlog (sessionRun_log_ne s hu ev)

/-! ## The serial data lines and the clock (R123(c)) -/

/-- In the two data phases of a slot the clock is low. -/
theorem sclkAt_dataPhase (u : Nat) (hu : u < 40) (hphase : u % 4 < 2) : sclkAt u = false := by
  simp [sclkAt, show u ≠ 41 by omega, show u % 4 ≠ 3 by omega]

/-- A micro-step of a transfer that drives a serial data line is a data phase of a slot. -/
theorem transferMicro_data_event (d e : Byte) (s : State) (hu : s.u.toNat < 42) (l : Line) (v : Bool)
    (hl : l = .din ∨ l = .iin) (h : (transferMicro d e s).log = .drive l v :: s.log) :
    s.u.toNat < 40 ∧ s.u.toNat % 4 < 2 := by
  obtain ⟨hu0, -⟩ | ⟨j, -, h9, huj, -⟩ | ⟨j, h9, huj, -⟩ | ⟨j, -, -, he⟩ | ⟨j, -, -, he⟩ | ⟨-, he⟩ | ⟨-, he⟩ :=
    transferMicro_cases d e s hu
  · omega
  · omega
  · omega
  all_goals
    rw [he] at h
    obtain rfl | rfl := hl <;> cases h

/-- Outside a transfer the clock is low (R34). -/
theorem sclk_low_of_no_transfer (s : State) (hi : Inv s) (hp : pairAt fixedProgram s.mpc.toNat = none) :
    s.out.sclk = false := by
  rw [hi.sclk, hp]
  rfl

/-! ## The statements -/

/-- Settles O54: each instruction that appends one event appends one of its own. -/
theorem lineAccessTable : Obligations.LineAccessTable := by
  intro i s t ev h hlog
  obtain ⟨hp, l, v, rfl, hl⟩ | ⟨rfl, b, rfl⟩ | ⟨rfl, hmem⟩ | ⟨rfl, rfl⟩ := exec_event i s t ev h hlog
  · obtain rfl | rfl | rfl := hl <;> simp [hp]
  · simp
  · obtain ⟨hsclk, hdout, hdir, hsample⟩ := enterEvents_access ev hmem
    exact ⟨fun _ _ => .inr rfl, fun v hv => absurd hv (hsclk v), fun v hv => ⟨rfl, hdout v hv⟩, fun _ _ => .inl rfl,
      fun l d hd => ⟨rfl, hdir l d hd⟩, fun _ => rfl, fun b hb => absurd hb (hsample b)⟩
  · simp

/-- Settles O21: a transfer writes the data lines in the data phases of a slot, and no other word raises the clock. -/
theorem serialLinesWrittenWhileClockLow : Obligations.SerialLinesWrittenWhileClockLow := by
  intro s t v hi h hlog
  obtain ⟨l, hl, hlog⟩ : ∃ l, (l = .din ∨ l = .iin) ∧ t.log = .drive l v :: s.log := by
    obtain hd | hd := hlog
    · exact ⟨_, .inl rfl, hd⟩
    · exact ⟨_, .inr rfl, hd⟩
  obtain ⟨d, e, -, -, -, hu, rfl⟩ | ⟨-, -, hp, -⟩ | ⟨h0, -⟩ | ⟨h16, -⟩ | rfl :=
    step_cases_fixedProgram s t hi.prog hi.mpc h
  · obtain ⟨h40, hphase⟩ := transferMicro_data_event d e s hu l v hl hlog
    rw [hi.sclk, sclkAt_dataPhase _ h40 hphase, Bool.and_false]
  · exact sclk_low_of_no_transfer s hi hp
  · exact sclk_low_of_no_transfer s hi (h0 ▸ by decide)
  · exact sclk_low_of_no_transfer s hi (h16 ▸ by decide)
  · exact absurd hlog (List.cons_ne_self _ _).symm

end Sys2Proof.Machine
end

section
/-! Runs of the fixed program (R178, R191): under the invariant every step answers, every word but `POLL` comes to its
end by counting its micro-steps, and a wait ends at the first high sample. -/

namespace Sys2Proof.Machine

/-! ## Each word of `PROG` answers (R203) -/

/-- The kinds of words in `PROG` and where they stand (R98). -/
theorem fixedProgram_kinds : ∀ m < 18,
    (pairAt fixedProgram m).isSome = true ∨ (instrAt fixedProgram m = some .poll ∧ 5 ≤ m ∧ m ≤ 15) ∨
    (instrAt fixedProgram m = some .enter ∧ m = 0) ∨ (instrAt fixedProgram m = some .exit ∧ m = 16) ∨
    (instrAt fixedProgram m = some .halt ∧ m = 17) := by
  decide

theorem microCount_of_poll (p : List ProgWord) (m : Nat) (h : instrAt p m = some .poll) : microCount p m = 1 := by
  simp [microCount, pairAt, h, operandPair]

theorem microCount_of_enter (p : List ProgWord) (m : Nat) (h : instrAt p m = some .enter) : microCount p m = 9 := by
  simp [microCount, pairAt, h, operandPair]

theorem microCount_of_exit (p : List ProgWord) (m : Nat) (h : instrAt p m = some .exit) : microCount p m = 1 := by
  simp [microCount, pairAt, h, operandPair]

/-- A step runs the instruction that stands at `mpc`. -/
theorem step_of_instrAt (s : State) (i : Instr) (h : instrAt s.prog s.mpc.toNat = some i) : step s = exec i s := by
  obtain ⟨w, hf, hd⟩ := Option.bind_eq_some_iff.1 h
  cases hw : decodeWord w with
  | error e => simp [hw, Except.toOption] at hd
  | ok j =>
    obtain rfl : j = i := by simpa [hw, Except.toOption] using hd
    exact step_eq_exec s w j hf hw

/-- Under the invariant each kind of word answers its micro-step; at `HALT` the state stays (log entry 5). -/
theorem step_of_inv (s : State) (hi : Inv s) :
    (∃ d e, s.u.toNat < 42 ∧ step s = .next (transferMicro d e s)) ∨ step s = .next (pollMicro s) ∨
    (s.u.toNat < 9 ∧ step s = .next (enterMicro s)) ∨ step s = .next (exitMicro s) ∨
    (s.mpc.toNat = 17 ∧ step s = .next s) := by
  have hm := hi.mpc
  have hu := hi.u
  have hstep (i : Instr) (h : instrAt fixedProgram s.mpc.toNat = some i) : step s = exec i s :=
    step_of_instrAt s i (hi.prog ▸ h)
  have hready (h1 : 1 ≤ s.mpc.toNat) : s.dir = readyDirs := hi.dirs.trans (dirsAt_after_enter _ _ h1)
  obtain hp | ⟨h, h5, -⟩ | ⟨h, -⟩ | ⟨h, -⟩ | ⟨h, h17⟩ := fixedProgram_kinds s.mpc.toNat (by omega)
  · obtain ⟨h1, -⟩ := transfer_between_1_and_14 _ (by omega) hp
    rw [microCount_of_transfer _ _ hp] at hu
    obtain ⟨⟨d, e⟩, hde⟩ := Option.isSome_iff_exists.1 hp
    obtain ⟨i, hinstr, hpair⟩ := Option.bind_eq_some_iff.1 hde
    refine .inl ⟨d, e, hu, ?_⟩
    rw [hstep i hinstr, exec_transfer i d e hpair]
    refine transfer_next d e s hu fun hu0 => ⟨?_, by rw [hready h1]; rfl⟩
    rw [out_of_inv_start s hi hu0]
    rfl
  · rw [microCount_of_poll _ _ h] at hu
    have hd := hready (by omega)
    exact .inr (.inl ((hstep _ h).trans
      ((execPoll_next_iff s _).2 ⟨by omega, by rw [hd]; rfl, by rw [hd]; rfl, rfl⟩)))
  · rw [microCount_of_enter _ _ h] at hu
    exact .inr (.inr (.inl ⟨hu, (hstep _ h).trans ((execEnter_next_iff s _).2 ⟨hu, rfl⟩)⟩))
  · rw [microCount_of_exit _ _ h] at hu
    exact .inr (.inr (.inr (.inl ((hstep _ h).trans ((execExit_next_iff s _).2 ⟨by omega, rfl⟩)))))
  · exact .inr (.inr (.inr (.inr ⟨h17, hstep _ h⟩)))

/-- Before `HALT` a step goes to the next word, to the next micro-step without a sample, or takes a low sample and stays
(R22, R150). -/
theorem step_progresses (s : State) (hi : Inv s) (h16 : s.mpc.toNat ≤ 16) : ∃ t, step s = .next t ∧
    (t.mpc.toNat = s.mpc.toNat + 1 ∨
      (t.mpc = s.mpc ∧ t.u.toNat = s.u.toNat + 1 ∧ t.samples = s.samples) ∨
      (t = sample s ∧ Config.doutLevel s.samples = false)) := by
  obtain ⟨d, e, hu, h⟩ | h | ⟨hu, h⟩ | h | ⟨h17, -⟩ := step_of_inv s hi
  · obtain ⟨-, -, -, -, hsamples⟩ := transferMicro_frame d e s hu
    refine ⟨_, h, ?_⟩
    obtain ⟨-, hm', hu'⟩ | ⟨-, hm', -⟩ := transferMicro_counter d e s hu (by omega)
    · exact .inr (.inl ⟨hm', hu', hsamples⟩)
    · exact .inl hm'
  · refine ⟨_, h, ?_⟩
    obtain ⟨-, he⟩ | ⟨hlow, he⟩ := pollMicro_cases s <;> rw [he]
    · exact .inl (toNat_mpc_succ s.mpc (by omega))
    · exact .inr (.inr ⟨rfl, hlow⟩)
  · obtain ⟨-, -, -, hsamples⟩ := enterMicro_frame s hu
    refine ⟨_, h, ?_⟩
    obtain ⟨-, hm', hu'⟩ | ⟨-, hm', -⟩ := enterMicro_counter s hu (by omega)
    · exact .inr (.inl ⟨hm', hu', hsamples⟩)
    · exact .inl hm'
  · exact ⟨_, h, .inl (toNat_mpc_succ s.mpc (by omega))⟩
  · omega

/-! ## Runs -/

/-- Some number of steps leads from `s` to `t`. -/
def Reaches (s t : State) : Prop := ∃ n, stepN n s = .next t

theorem Reaches.refl (s : State) : Reaches s s := ⟨0, rfl⟩

theorem Reaches.trans {s t r : State} (h : Reaches s t) (h' : Reaches t r) : Reaches s r := by
  obtain ⟨m, hm⟩ := h
  obtain ⟨n, hn⟩ := h'
  exact ⟨m + n, (stepN_add m n s t hm).trans hn⟩

theorem Reaches.of_step {s t : State} (h : step s = .next t) : Reaches s t := ⟨1, by simp only [stepN, h]⟩

/-- From a state before `HALT`, with a high answer still to come, a run reaches the next word: each step that stays at
the word has one micro-step less to go, or one sample less to wait for. -/
theorem reaches_nextWord (k : Nat) (hk : Config.doutLevel k = true) (s : State) (hi : Inv s) (h16 : s.mpc.toNat ≤ 16)
    (hs : s.samples ≤ k) : ∃ t, Reaches s t ∧ Inv t ∧ t.mpc.toNat = s.mpc.toNat + 1 := by
  obtain ⟨t, hstep, hcase⟩ := step_progresses s hi h16
  have hinv := stepKeepsInvariant s t hi hstep
  have hgo (hm : t.mpc = s.mpc) (h : ∃ r, Reaches t r ∧ Inv r ∧ r.mpc.toNat = t.mpc.toNat + 1) :
      ∃ r, Reaches s r ∧ Inv r ∧ r.mpc.toNat = s.mpc.toNat + 1 := by
    obtain ⟨r, hr, hir, hmr⟩ := h
    exact ⟨r, (Reaches.of_step hstep).trans hr, hir, hm ▸ hmr⟩
  obtain hm | ⟨hm, hu, hsamples⟩ | ⟨rfl, hlow⟩ := hcase
  · exact ⟨t, .of_step hstep, hinv, hm⟩
  · exact hgo hm (reaches_nextWord k hk t hinv (hm ▸ h16) (hsamples ▸ hs))
  · have hne : s.samples ≠ k := by
      rintro rfl
      cases hk.symm.trans hlow
    have hlt : s.samples < k := by omega
    exact hgo rfl (reaches_nextWord k hk (sample s) hinv h16 hlt)
termination_by 64 - s.u.toNat + (k - s.samples)
decreasing_by
  · omega
  · simp only [sample_u, sample_samples]
    omega

/-- Where the target acknowledges, a run reaches `HALT`: one word after the other (R178). -/
theorem reaches_halt (hacks : TargetAcks) (s : State) (hi : Inv s) :
    ∃ t, Reaches s t ∧ Inv t ∧ t.mpc.toNat = 17 := by
  by_cases h17 : s.mpc.toNat = 17
  · exact ⟨s, .refl s, hi, h17⟩
  · have hm := hi.mpc
    obtain ⟨k, hs, hk⟩ := hacks s.samples
    obtain ⟨t, hst, hit, hmt⟩ := reaches_nextWord k hk s hi (by omega) hs
    obtain ⟨r, htr, hr⟩ := reaches_halt hacks t hit
    exact ⟨r, hst.trans htr, hr⟩
termination_by 17 - s.mpc.toNat

/-- At word 17 of the fixed program stands `HALT` (R98). -/
theorem isFinal_of_inv (s : State) (hi : Inv s) (h17 : s.mpc.toNat = 17) : IsFinal s := by
  rw [IsFinal, fetch, hi.prog, h17]
  decide

/-- Without the premise on the target the level is low from some sample on (R70). -/
theorem low_of_not_targetAcks (h : ¬ TargetAcks) : ∃ m, ∀ n, m ≤ n → Config.doutLevel n = false := by
  simpa [TargetAcks] using h

/-! ## The statement -/

/-- Settles O56: a run reaches `HALT` if the target acknowledges, and otherwise data-out stays low. -/
theorem runEndsOrDataOutStaysLow : Obligations.RunEndsOrDataOutStaysLow := by
  intro s hi
  by_cases hacks : TargetAcks
  · obtain ⟨t, ⟨n, hn⟩, hit, h17⟩ := reaches_halt hacks s hi
    exact .inl ⟨n, t, hn, isFinal_of_inv t hit h17, (done_iff t).2 h17⟩
  · exact .inr (low_of_not_targetAcks hacks)

end Sys2Proof.Machine
end

section
/-! Each word is read back as the instruction it encodes, and only as that one (R93, R94, R96, R102, R103), and a
reserved word is refused by name (R99(a), U1). -/

namespace Sys2Proof

open Machine

/-! ## Decoding a packed word, by its kind (R103) -/

theorem decodeWord_xferWord (d e : Byte) : decodeWord (xferWord d e) = .ok ((Instr.named d e).getD (.xfer d e)) := by
  simp [decodeWord, xferWord]

theorem decodePlain_packWord (k : BitVec 3) (d i : Byte) (j : Instr) : decodePlain (packWord k d i) j =
    if d = 0x00#8 ∧ i = 0x00#8 then .ok j else .error (.reservedOperand k) := by
  simp only [decodePlain, dataOf_packWord, instrOf_packWord, kindOf_packWord]

theorem plainKind_cases : ∀ k : BitVec 3, 1 ≤ k.toNat → k.toNat ≤ 4 → k = 1#3 ∨ k = 2#3 ∨ k = 3#3 ∨ k = 4#3 := by
  decide

/-- Kinds 1 to 4 are the four instructions without operands, with operand bits zero (R103(3)). -/
theorem decodeWord_plain (k : BitVec 3) (d i : Byte) (h1 : 1 ≤ k.toNat) (h4 : k.toNat ≤ 4) :
    decodeWord (packWord k d i) =
      if d = 0x00#8 ∧ i = 0x00#8 then
        .ok (if k = 1#3 then .poll else if k = 2#3 then .enter else if k = 3#3 then .exit else .halt)
      else .error (.reservedOperand k) := by
  obtain rfl | rfl | rfl | rfl := plainKind_cases k h1 h4 <;> simp [decodeWord, decodePlain_packWord]

/-- Kinds 5 to 7 are reserved (R99(a)). -/
theorem decodeWord_reservedKind (k : BitVec 3) (d i : Byte) (h5 : 5 ≤ k.toNat) :
    decodeWord (packWord k d i) = .error (.reservedKind k) := by
  have hne (n : BitVec 3) (hn : n.toNat < 5) : k ≠ n := by
    rintro rfl
    omega
  simp [decodeWord, hne]

theorem step_of_reserved (s : State) (w : ProgWord) (r : Reserved) (hf : fetch s = some w)
    (hd : decodeWord w = .error r) : step s = .refused (refusalOf r) := by
  simp only [step, hf, hd]

/-! ## The words of each kind of instruction (R94, R96, R102) -/

/-- An instruction is a transfer, a fuse write, one of the four without operands, or the session. -/
theorem Instr.kind_cases (i : Instr) :
    (∃ d e, operandPair i = some (d, e)) ∨ (∃ f v, fuseOperand i = some (f, v)) ∨
    i = .poll ∨ i = .enter ∨ i = .exit ∨ i = .halt ∨ i = .session := by
  cases i <;> simp [operandPair, fuseOperand]

theorem encode_of_operandPair (i : Instr) (d e : Byte) (h : operandPair i = some (d, e)) :
    encode i = [xferWord d e] := by
  cases i <;> cases h <;> rfl

theorem encode_of_fuseOperand (i : Instr) (f : Fuse) (v : Byte) (h : fuseOperand i = some (f, v)) :
    encode i = fuseWords f v := by
  cases i <;> cases h <;> rfl

/-! ## The name of an operand pair (R96, R103) -/

/-- The name R103 gives a pair is well formed. -/
theorem wellFormed_named (d e : Byte) : ((Instr.named d e).getD (.xfer d e)).wellFormed = true := by
  cases h : Instr.named d e with
  | none => simp [Instr.wellFormed, h]
  | some i =>
    unfold Instr.named at h
    split_ifs at h <;> cases h <;> rfl

/-- A well-formed transfer stands under the name R103 gives its pair. -/
theorem named_of_wellFormed (i : Instr) (d e : Byte) (hp : operandPair i = some (d, e)) (hwf : i.wellFormed = true) :
    (Instr.named d e).getD (.xfer d e) = i := by
  cases i <;> cases hp
  case xfer => simp [Option.isNone_iff_eq_none.1 hwf]
  case lddata => simp [Instr.named]
  all_goals rfl

/-! ## The words of a fuse write (R152 to R155) -/

theorem xferWord_inj (d e d' e' : Byte) : xferWord d e = xferWord d' e' ↔ d = d' ∧ e = e' := by
  refine ⟨fun h => ⟨?_, ?_⟩, fun ⟨hd, he⟩ => hd ▸ he ▸ rfl⟩
  · simpa [xferWord] using congrArg dataOf h
  · simpa [xferWord] using congrArg instrOf h

theorem fuseSelect_inj (f g : Fuse) : fuseSelect f = fuseSelect g ↔ f = g := by
  cases f <;> cases g <;> decide

/-- The words of a fuse write tell its fuse type. -/
theorem fuseWords_eq_iff (f g : Fuse) (v : Byte) : fuseWords f v = fuseWords g v ↔ f = g := by
  refine ⟨fun h => ?_, fun h => h ▸ rfl⟩
  simp only [fuseWords, fuseCalls, List.map_cons, List.map_nil, List.cons_append, List.nil_append, List.cons.injEq,
    xferWord_inj, fuseSelect_inj] at h
  obtain ⟨-, -, ⟨-, hselect⟩, -⟩ := h
  exact hselect

/-- Five words that are a fuse write are read as it. -/
theorem decodeWords_fuseWords (i : Instr) (f : Fuse) (v : Byte) (h : fuseOperand i = some (f, v)) :
    decodeWords (fuseWords f v) = some i := by
  have hv : dataOf (((fuseWords f v)[1]?).getD 0#19) = v := dataOf_packWord _ _ _
  rw [decodeWords]
  · simp only [hv, fuseWords_eq_iff]
    cases i <;> cases h <;> rfl
  · rintro w ⟨⟩

/-! ## The statements -/

/-- Settles O4: by the kind of instruction; a transfer is read back under its name, a fuse write by its third word. -/
theorem decodeOfEncode : Obligations.DecodeOfEncode := by
  intro i hwf
  obtain ⟨d, e, hp⟩ | ⟨f, v, hf⟩ | rfl | rfl | rfl | rfl | rfl := i.kind_cases
  · rw [encode_of_operandPair i d e hp, decodeWords, decodeWord_xferWord, named_of_wellFormed i d e hp hwf]
    rfl
  · rw [encode_of_fuseOperand i f v hf, decodeWords_fuseWords i f v hf]
  all_goals decide

/-- Settles O2, kind by kind. -/
theorem decodingFollowsKindThenName : Obligations.DecodingFollowsKindThenName := by
  refine ⟨fun d i => ?_, decodeWord_plain, decodeWord_reservedKind, packWord_fields⟩
  rw [← xferWord, decodeWord_xferWord, Instr.named]
  split_ifs <;> rfl

/-- Settles O3: the decoder's answer for a reserved word, and the name under which the step refuses it. -/
theorem reservedWordIsRefused : Obligations.ReservedWordIsRefused := by
  intro s k d i hf
  refine ⟨fun h5 => step_of_reserved s _ _ hf (decodeWord_reservedKind k d i h5), fun h1 h4 hne => ?_⟩
  refine step_of_reserved s _ (.reservedOperand k) hf ?_
  rw [decodeWord_plain k d i h1 h4, if_neg (not_and_or.2 hne)]

/-- Settles O5: a word that decodes is a transfer under its name, or one of the four words without operands. -/
theorem encodeOfDecode : Obligations.EncodeOfDecode := by
  intro w i h
  obtain ⟨d, e, rfl, hp⟩ | ⟨rfl, rfl⟩ | ⟨rfl, rfl⟩ | ⟨rfl, rfl⟩ | ⟨rfl, rfl⟩ := decodeWord_ok w i h
  · rw [decodeWord_xferWord] at h
    cases h
    exact ⟨encode_of_operandPair _ d e hp, wellFormed_named d e⟩
  all_goals exact ⟨rfl, rfl⟩

end Sys2Proof
end

section
/-! The frame of a byte and what a transfer shows at the eleven rising edges of its clock (R91, R124). -/

namespace Sys2Proof.Machine

/-! ## The frame of a byte (R91) -/

/-- Two zero bits below the byte, and nothing is lost above it (R126(b)). -/
theorem toNat_w11 (b : Byte) : (w11 b).toNat = 4 * b.toNat := by
  have hb := b.isLt
  simp only [w11, BitVec.toNat_shiftLeft, BitVec.toNat_setWidth, Nat.shiftLeft_eq]
  omega

theorem getLsbD_w11_low (b : Byte) (j : Nat) (hj : j < 2) : (w11 b).getLsbD j = false := by
  simp [w11, hj]

theorem getLsbD_w11_add_two (b : Byte) (k : Nat) : (w11 b).getLsbD (k + 2) = b.getLsbD k := by
  rw [w11, BitVec.getLsbD_shiftLeft, BitVec.getLsbD_setWidth]
  by_cases hk : k < 9
  · simp [show k + 2 < 11 by omega, show k < 11 by omega]
  · simp [show ¬ k + 2 < 11 by omega, BitVec.getLsbD_of_ge b k (by omega)]

/-! ## The clock-sampled view of a list of slots (R124) -/

theorem clockSampled_append (w : Wires) (es es' : List Event) :
    clockSampled w (es ++ es') = clockSampled w es ++ clockSampled (replay w es) es' := by
  induction es generalizing w with
  | nil => rfl
  | cons ev es ih =>
    simp only [List.cons_append, clockSampled, ih, replay, List.foldl_cons]
    split <;> rfl

theorem replay_append (w : Wires) (es es' : List Event) : replay w (es ++ es') = replay (replay w es) es' :=
  List.foldl_append

/-- A slot shows its two bits at its rising edge. -/
theorem clockSampled_slotLog (d e : Byte) (j : Nat) (w : Wires) (h : w.out.sclk = false) :
    clockSampled w (slotLog d e j).reverse = [(frameBit d j, frameBit e j)] := by
  simp [slotLog, clockSampled, isRising, wiresAfter, Latch.write, h]

/-- A bare clock pulse shows the levels that stand on the lines. -/
theorem clockSampled_pulse (w : Wires) (h : w.out.sclk = false) :
    clockSampled w pulseEvents = [(w.out.din, w.out.iin)] := by
  simp [pulseEvents, clockSampled, isRising, wiresAfter, Latch.write, h]

/-- The latch after a number of slots: the bits of the last one, the clock low. -/
theorem replay_slotsLog_succ (d e : Byte) (k : Nat) (w : Wires) :
    (replay w (slotsLog d e (k + 1)).reverse).out.din = frameBit d k ∧
    (replay w (slotsLog d e (k + 1)).reverse).out.iin = frameBit e k ∧
    (replay w (slotsLog d e (k + 1)).reverse).out.sclk = false := by
  rw [slotsLog, List.reverse_append, replay_append]
  exact ⟨rfl, rfl, rfl⟩

/-- The first slots of a transfer show the first bits of the two frames. -/
theorem clockSampled_slotsLog (d e : Byte) (k : Nat) (w : Wires) (h : w.out.sclk = false) :
    clockSampled w (slotsLog d e k).reverse = (List.range k).map fun slot => (frameBit d slot, frameBit e slot) := by
  induction k with
  | zero => rfl
  | succ k ih =>
    have hlow : (replay w (slotsLog d e k).reverse).out.sclk = false := by
      cases k with
      | zero => exact h
      | succ k => exact (replay_slotsLog_succ d e k w).2.2
    rw [slotsLog, List.reverse_append, clockSampled_append, ih, clockSampled_slotLog d e k _ hlow, List.range_succ,
      List.map_append]
    rfl

/-- A transfer is its ten slots and a bare pulse (R121, R122). -/
theorem transferEvents_eq_slots (d e : Byte) : transferEvents d e = (slotsLog d e 10).reverse ++ pulseEvents := by
  rw [← List.reverse_reverse (transferEvents d e), ← slotsLog_pulse]
  simp [pulseEvents]

/-- From a low clock a transfer shows the two frames, slot by slot; slot 10 shows what slot 9 left, which is zero. -/
theorem clockSampled_transferEvents (d e : Byte) (w : Wires) (h : w.out.sclk = false) :
    clockSampled w (transferEvents d e) = (List.range 11).map fun slot => (frameBit d slot, frameBit e slot) := by
  obtain ⟨hdin, hiin, hlow⟩ := replay_slotsLog_succ d e 9 w
  rw [transferEvents_eq_slots, clockSampled_append, clockSampled_slotsLog d e 10 w h, clockSampled_pulse _ hlow, hdin,
    hiin, List.range_succ (n := 10), List.map_append, frameBit_nine, frameBit_nine]
  simp only [List.map_cons, List.map_nil, frameBit_ten]

/-! ## The statement -/

/-- Settles O6: the bits of the frame, and the frame on the two lines slot by slot. -/
theorem framePlacesPayload : Obligations.FramePlacesPayload := by
  refine ⟨fun b => ⟨toNat_w11 b, ?_, getLsbD_w11_low b 1 (by omega), getLsbD_w11_low b 0 (by omega),
    fun k _ => getLsbD_w11_add_two b k, fun _ _ => rfl, fun k hk => ?_⟩, clockSampled_transferEvents⟩
  · exact (getLsbD_w11_add_two b 8).trans (BitVec.getLsbD_of_ge b 8 le_rfl)
  · rw [frameBit, show 10 - (8 - k) = k + 2 by omega, getLsbD_w11_add_two]

end Sys2Proof.Machine
end

section
/-! Where a pseudo-instruction stops and the whole state it leaves when it runs (R102, R152 to R155, R173). -/

namespace Sys2Proof.Machine

/-! ## Stops (R203) -/

theorem fuseWrite_noSuchMicroStep (f : Fuse) (v : Byte) (s : State) (hu : s.u.toNat ≠ 0) :
    fuseWrite f v s = .refused .noSuchMicroStep := if_pos hu

theorem fuseWrite_withClockHigh (f : Fuse) (v : Byte) (s : State) (hu : s.u.toNat = 0) (hc : s.out.sclk = true) :
    fuseWrite f v s = .refused .transferWithClockHigh := by
  simp [fuseWrite, hu, hc]

theorem fuseWrite_sampleWhileDriven (f : Fuse) (v : Byte) (s : State) (hu : s.u.toNat = 0) (hc : s.out.sclk = false)
    (hd : s.dir.dout = .output) : fuseWrite f v s = .refused .sampleWhileDriven := by
  simp [fuseWrite, hu, hc, hd]

theorem fuseWrite_linesNotConfigured (f : Fuse) (v : Byte) (s : State) (hu : s.u.toNat = 0) (hc : s.out.sclk = false)
    (hd : s.dir.dout = .input) (hs : s.dir.serialOut = false) : fuseWrite f v s = .refused .linesNotConfigured := by
  simp [fuseWrite, hu, hc, hd, hs]

theorem execSession_noSuchMicroStep (s : State) (hu : s.u.toNat ≠ 0) :
    execSession s = .refused .noSuchMicroStep := if_pos hu

theorem execSession_withClockHigh (s : State) (hu : s.u.toNat = 0) (hc : s.out.sclk = true) :
    execSession s = .refused .transferWithClockHigh := by
  simp [execSession, hu, hc]

/-! ## What a fuse write leaves -/

theorem toNat_u_eq_zero (s : State) (hu : s.u = 0#6) : s.u.toNat = 0 := congrArg BitVec.toNat hu

/-- A fuse write alone is a wait after which nothing goes on. -/
theorem waitThen_id (s : State) : waitThen id s = pollMicro s := ite_self _

/-- The four transfers of a fuse write and the first sample of its wait (R152, log entry 6). -/
theorem pollMicro_fuseTransfers (f : Fuse) (v : Byte) (s : State) (hu : s.u = 0#6) :
    pollMicro (fuseTransfers f v s) = { s with
      dreg := 0x00#8
      ireg := fuseStrobe f
      mpc := if Config.doutLevel s.samples = true then s.mpc + 5 else s.mpc + 4
      out := { s.out with din := false, iin := false, sclk := false }
      samples := s.samples + 1
      log := .sample (Config.doutLevel s.samples) :: ((fuseEvents f v).reverse ++ s.log) } := by
  rw [← waitThen_id, fuseWait_eq f v id s hu]
  cases Config.doutLevel s.samples <;> simp [hu]

/-! ## The statements -/

/-- Settles O27. -/
theorem fuseWriteCompletes : Obligations.FuseWriteCompletes := by
  intro i f v s hf hu hc hd hs
  rw [exec_fuseWrite i f v hf, ← pollMicro_fuseTransfers f v s hu]
  exact (fuseWrite_next_iff f v s _).2 ⟨toNat_u_eq_zero s hu, hc, hd, hs, rfl⟩

/-- Settles O39. -/
theorem sessionCompletes : Obligations.SessionCompletes := by
  intro s hu hc
  exact ((execSession_next_iff s _).2 ⟨toNat_u_eq_zero s hu, hc, rfl⟩).trans (congrArg _ (sessionRun_eq s hu))

/-- Settles O30: the tests at the start of the two kinds of pseudo-instruction, one after the other. -/
theorem macroStops : Obligations.MacroStops := by
  have hu0 := toNat_u_eq_zero
  refine ⟨fun i f v s hf => ?_, fun s => ⟨fun hu => ?_, fun hu hc => ?_⟩⟩
  · rw [exec_fuseWrite i f v hf]
    exact ⟨fun hu => fuseWrite_noSuchMicroStep f v s ((u_ne_zero_iff s).1 hu),
      fun hu hc => fuseWrite_withClockHigh f v s (hu0 s hu) hc,
      fun hu hc hd => fuseWrite_sampleWhileDriven f v s (hu0 s hu) hc hd,
      fun hu hc hd hs => fuseWrite_linesNotConfigured f v s (hu0 s hu) hc hd ((DirReg.serialOut_eq_false_iff _).2 hs)⟩
  · exact execSession_noSuchMicroStep s ((u_ne_zero_iff s).1 hu)
  · exact execSession_withClockHigh s (hu0 s hu) hc

end Sys2Proof.Machine
end

section
/-! A pseudo-instruction is a run of the machine over the words of its expansion (R102, R152, R173): of one word, of the four
transfers and the wait of a fuse write, and of the fixed program. -/

namespace Sys2Proof.Machine

/-! ## Program space from `mpc` on (R61) -/

theorem fetch_congr {s t : State} (hprog : t.prog = s.prog) (hmpc : t.mpc = s.mpc) : fetch t = fetch s := by
  rw [fetch, fetch, hprog, hmpc]

theorem mpc_lt_of_fetch {s : State} {w : ProgWord} (hf : fetch s = some w) : s.mpc.toNat < 18 :=
  (Program.read_some _ _ _ hf).1

theorem HoldsAt.fetch_head {s : State} {w : ProgWord} {ws : List ProgWord} (h : HoldsAt s (w :: ws)) :
    fetch s = some w := h 0 (Nat.zero_lt_succ _)

/-- At the next word stand the words after the first. -/
theorem HoldsAt.tail {s t : State} {w : ProgWord} {ws : List ProgWord} (h : HoldsAt s (w :: ws))
    (hprog : t.prog = s.prog) (hmpc : t.mpc = s.mpc + 1) : HoldsAt t ws := by
  intro k hk
  have hm := mpc_lt_of_fetch h.fetch_head
  rw [hprog, hmpc, toNat_mpc_succ _ (by omega), Nat.add_right_comm]
  exact h (k + 1) (Nat.succ_lt_succ hk)

/-! ## Runs of one word -/

theorem stepN_one {s t : State} (h : step s = .next t) : stepN 1 s = .next t := by
  simp only [stepN, h]

/-- While a micro-step goes to the next one of its word, `k` of them lead to micro-step `k` of the same word. -/
theorem iterate_counter (g : State → State) (last : Nat) (s : State) (hu : s.u = 0#6) (hm : s.mpc.toNat < 18)
    (hg : ∀ t, t.u.toNat < last → t.mpc.toNat < 18 →
      (g t).u.toNat = t.u.toNat + 1 ∧ (g t).mpc = t.mpc ∧ (g t).prog = t.prog) (k : Nat) (hk : k ≤ last) :
    (g^[k] s).u.toNat = k ∧ (g^[k] s).mpc = s.mpc ∧ (g^[k] s).prog = s.prog := by
  induction k with
  | zero => exact ⟨toNat_u_eq_zero s hu, rfl, rfl⟩
  | succ k ih =>
    obtain ⟨hu', hm', hp'⟩ := ih (Nat.le_of_succ_le hk)
    obtain ⟨hgu, hgm, hgp⟩ := hg (g^[k] s) (by omega) (hm' ▸ hm)
    rw [Function.iterate_succ_apply']
    exact ⟨by rw [hgu, hu'], hgm.trans hm', hgp.trans hp'⟩

/-- The steps of a word from its first micro-step to its last, when each of them answers. -/
theorem stepN_word (g : State → State) (last : Nat) (s : State) (w : ProgWord) (hf : fetch s = some w)
    (hu : s.u = 0#6)
    (hg : ∀ t, t.u.toNat < last → t.mpc.toNat < 18 →
      (g t).u.toNat = t.u.toNat + 1 ∧ (g t).mpc = t.mpc ∧ (g t).prog = t.prog)
    (hstep : ∀ t, fetch t = some w → t.u.toNat ≤ last → (t.u.toNat = 0 → t = s) → step t = .next (g t)) :
    ∀ n ≤ last + 1, stepN n s = .next (g^[n] s) := by
  intro n hn
  induction n with
  | zero => rfl
  | succ k ih =>
    obtain ⟨hu', hm', hp'⟩ := iterate_counter g last s hu (mpc_lt_of_fetch hf) hg k (Nat.le_of_lt_succ hn)
    have hstart (h0 : (g^[k] s).u.toNat = 0) : g^[k] s = s := by
      obtain rfl : k = 0 := hu'.symm.trans h0
      rfl
    rw [stepN_add k 1 s _ (ih (Nat.le_of_succ_le hn)), Function.iterate_succ_apply']
    exact stepN_one (hstep _ ((fetch_congr hp' hm').trans hf) (by omega) hstart)

/-- The conditions under which a fuse write starts: the first micro-step of a word, the clock low, data-out an input and
the three serial lines outputs (R123, R151(g), R177). -/
structure ReadyToWrite (s : State) : Prop where
  u : s.u = 0#6
  sclk : s.out.sclk = false
  dout : s.dir.dout = .input
  serialOut : s.dir.serialOut = true

/-- The 42 steps of a transfer word are one whole transfer (R121, R135). -/
theorem stepN_transfer (d e : Byte) (s : State) (hf : fetch s = some (xferWord d e)) (hr : ReadyToWrite s) :
    stepN 42 s = .next (transferRun d e s) := by
  refine stepN_word (transferMicro d e) 41 s _ hf hr.u (fun t hu hm => ?_) (fun t ht hu h0 => ?_) 42 le_rfl
  · obtain ⟨-, -, -, hprog, -⟩ := transferMicro_frame d e t (by omega)
    obtain ⟨-, hm', hu'⟩ | ⟨h41, -⟩ := transferMicro_counter d e t (by omega) (by omega)
    · exact ⟨hu', hm', hprog⟩
    · omega
  · rw [step_eq_exec t _ _ ht (decodeWord_xferWord d e), exec_transfer _ d e (operandPair_named d e)]
    refine transfer_next d e t (by omega) fun hu0 => ?_
    rw [h0 hu0]
    exact ⟨hr.sclk, hr.serialOut⟩

/-- The nine steps of the word `ENTER` are one whole entry (R170). -/
theorem stepN_enter (s : State) (hf : fetch s = some enterWord) (hu : s.u = 0#6) : stepN 9 s = .next (enterRun s) := by
  refine stepN_word enterMicro 8 s _ hf hu (fun t hu hm => ?_) (fun t ht hu _ => ?_) 9 le_rfl
  · obtain ⟨-, -, hprog, -⟩ := enterMicro_frame t (by omega)
    obtain ⟨-, hm', hu'⟩ | ⟨h8, -⟩ := enterMicro_counter t (by omega) (by omega)
    · exact ⟨hu', hm', hprog⟩
    · omega
  · exact (step_eq_exec t _ .enter ht rfl).trans ((execEnter_next_iff t _).2 ⟨by omega, rfl⟩)

/-- The step of the word `POLL` is one sample (R150). -/
theorem step_poll (s : State) (hf : fetch s = some pollWord) (hr : ReadyToWrite s) : step s = .next (pollMicro s) :=
  (step_eq_exec s _ .poll hf rfl).trans
    ((execPoll_next_iff s _).2 ⟨toNat_u_eq_zero s hr.u, hr.dout, hr.serialOut, rfl⟩)

/-- The step of the word `EXIT` (R171). -/
theorem step_exit (s : State) (hf : fetch s = some exitWord) (hu : s.u = 0#6) : step s = .next (exitMicro s) :=
  (step_eq_exec s _ .exit hf rfl).trans ((execExit_next_iff s _).2 ⟨toNat_u_eq_zero s hu, rfl⟩)

/-! ## The run of a fuse write (R152) -/

/-- Whole transfers, one after the other. -/
def transfersRun (ps : List (Byte × Byte)) (s : State) : State := ps.foldl (fun t p => transferRun p.1 p.2 t) s

theorem transfersRun_cons (p : Byte × Byte) (ps : List (Byte × Byte)) (s : State) :
    transfersRun (p :: ps) s = transfersRun ps (transferRun p.1 p.2 s) := List.foldl_cons ..

/-- The transfers of a fuse write are those of its four operand pairs. -/
theorem fuseTransfers_eq_transfersRun (f : Fuse) (v : Byte) (s : State) :
    fuseTransfers f v s = transfersRun (fuseCalls f v) s := by
  simp only [fuseTransfers, transfersRun, fuseCalls, List.foldl_cons, List.foldl_nil]

/-- A whole transfer goes to the next word and leaves the lines ready for another. -/
theorem ReadyToWrite.transferRun {s : State} (hr : ReadyToWrite s) (d e : Byte) :
    ReadyToWrite (transferRun d e s) ∧ (transferRun d e s).prog = s.prog ∧ (transferRun d e s).mpc = s.mpc + 1 := by
  rw [transferRun_eq d e s hr.u]
  exact ⟨⟨rfl, rfl, hr.dout, hr.serialOut⟩, rfl, rfl⟩

/-- A run over transfer words is their transfers, and ends, ready, at the words after them. -/
theorem stepN_transfers (ps : List (Byte × Byte)) (ws : List ProgWord) (s : State)
    (h : HoldsAt s (ps.map (fun p => xferWord p.1 p.2) ++ ws)) (hr : ReadyToWrite s) :
    stepN (42 * ps.length) s = .next (transfersRun ps s) ∧ HoldsAt (transfersRun ps s) ws ∧
    ReadyToWrite (transfersRun ps s) := by
  induction ps generalizing s with
  | nil => exact ⟨rfl, h, hr⟩
  | cons p ps ih =>
    rw [List.map_cons, List.cons_append] at h
    rw [transfersRun_cons]
    obtain ⟨hready, hprog, hmpc⟩ := hr.transferRun p.1 p.2
    obtain ⟨hrun, hrest⟩ := ih (transferRun p.1 p.2 s) (h.tail hprog hmpc) hready
    refine ⟨?_, hrest⟩
    rw [List.length_cons, Nat.mul_succ, Nat.add_comm, stepN_add 42 _ s _ (stepN_transfer p.1 p.2 s h.fetch_head hr)]
    exact hrun

/-- A sample leaves the lines ready, and goes to the next word when it is high. -/
theorem ReadyToWrite.pollMicro {s : State} (hr : ReadyToWrite s) : ReadyToWrite (pollMicro s) ∧
    (pollMicro s).prog = s.prog ∧ (answer s = true → (pollMicro s).mpc = s.mpc + 1) := by
  obtain ⟨hb, he⟩ | ⟨hb, he⟩ := pollMicro_cases s <;> rw [he]
  · exact ⟨⟨rfl, hr.sclk, hr.dout, hr.serialOut⟩, rfl, fun _ => rfl⟩
  · exact ⟨⟨hr.u, hr.sclk, hr.dout, hr.serialOut⟩, rfl, fun h => by rw [h] at hb; cases hb⟩

/-- The 169 steps over the words of a fuse write, from its first micro-step to the first sample of its wait; after a high
sample the run stands, ready, at the words after them. -/
theorem stepN_fuseWrite (f : Fuse) (v : Byte) (ws : List ProgWord) (s : State) (h : HoldsAt s (fuseWords f v ++ ws))
    (hr : ReadyToWrite s) :
    stepN 169 s = .next (pollMicro (fuseTransfers f v s)) ∧
    (answer (fuseTransfers f v s) = true →
      HoldsAt (pollMicro (fuseTransfers f v s)) ws ∧ ReadyToWrite (pollMicro (fuseTransfers f v s))) := by
  rw [fuseWords, List.append_assoc] at h
  obtain ⟨hrun, hpoll, hready⟩ := stepN_transfers (fuseCalls f v) ([pollWord] ++ ws) s h hr
  rw [← fuseTransfers_eq_transfersRun] at hrun hpoll hready
  obtain ⟨hready', hprog, hmpc⟩ := hready.pollMicro
  exact ⟨(stepN_add 168 1 s _ hrun).trans (stepN_one (step_poll _ hpoll.fetch_head hready)),
    fun hb => ⟨hpoll.tail hprog (hmpc hb), hready'⟩⟩

/-! ## The run of a session (R173) -/

/-- A fuse write whose continuation after a high sample is a run of at most `m` steps is itself a run. -/
theorem stepN_waitThen (f : Fuse) (v : Byte) (ws : List ProgWord) (k : State → State) (m : Nat)
    (hk : ∀ a, HoldsAt a ws → ReadyToWrite a → ∃ n ≤ m, stepN n a = .next (k a))
    (s : State) (h : HoldsAt s (fuseWords f v ++ ws)) (hr : ReadyToWrite s) :
    ∃ n, 169 ≤ n ∧ n ≤ 169 + m ∧ stepN n s = .next (waitThen k (fuseTransfers f v s)) := by
  obtain ⟨hrun, hgo⟩ := stepN_fuseWrite f v ws s h hr
  rw [waitThen]
  split
  · next hb =>
    obtain ⟨hrest, hready⟩ := hgo hb
    obtain ⟨n, hn, hnk⟩ := hk _ hrest hready
    exact ⟨169 + n, by omega, by omega, (stepN_add 169 n s _ hrun).trans hnk⟩
  · exact ⟨169, le_rfl, by omega, hrun⟩

/-- A whole entry from a low clock goes to the next word with the lines ready (R170, R34). -/
theorem readyToWrite_enterRun (s : State) (hu : s.u = 0#6) (hc : s.out.sclk = false) :
    ReadyToWrite (enterRun s) ∧ (enterRun s).prog = s.prog ∧ (enterRun s).mpc = s.mpc + 1 := by
  rw [enterRun_eq s hu]
  exact ⟨⟨rfl, hc, rfl, rfl⟩, rfl, rfl⟩

/-- The fixed program holds the words of a session from its first word on (R98). -/
theorem holdsAt_sessionWords (s : State) (hprog : s.prog = fixedProgram) (hm : s.mpc = 0#5) :
    HoldsAt s sessionWords := by
  rw [HoldsAt, hprog, hm]
  decide

/-- A run over the words of a session is the session: the entry, and three fuse writes each of which goes on after a high
sample, the last one to `EXIT`. -/
theorem stepN_session (s : State) (h : HoldsAt s sessionWords) (hu : s.u = 0#6) (hc : s.out.sclk = false) :
    ∃ n, 178 ≤ n ∧ n ≤ 517 ∧ stepN n s = .next (sessionRun s) := by
  obtain ⟨hready, hprog, hmpc⟩ := readyToWrite_enterRun s hu hc
  simp only [sessionWords, List.append_assoc, List.cons_append, List.nil_append] at h
  have hexit (a : State) (ha : HoldsAt a [exitWord, haltWord]) (hr : ReadyToWrite a) :
      ∃ n ≤ 1, stepN n a = .next (exitMicro a) := ⟨1, le_rfl, stepN_one (step_exit a ha.fetch_head hr.u)⟩
  have hext := stepN_waitThen .ext (fuseValue .ext) _ exitMicro 1 hexit
  have hhigh := stepN_waitThen .high (fuseValue .high) _ _ 170 fun a ha hr =>
    let ⟨n, _, hn, hrun⟩ := hext a ha hr
    ⟨n, hn, hrun⟩
  obtain ⟨n, h169, hn, hrun⟩ := stepN_waitThen .low (fuseValue .low) _ _ 339
    (fun a ha hr =>
      let ⟨n, _, hn, hrun⟩ := hhigh a ha hr
      ⟨n, hn, hrun⟩) (enterRun s) (h.tail hprog hmpc) hready
  exact ⟨9 + n, by omega, by omega, (stepN_add 9 n s _ (stepN_enter s h.fetch_head hu)).trans hrun⟩

/-! ## The statements -/

/-- Settles O28: 42 steps for each of the four transfers, and one for the sample. -/
theorem fuseWriteIsItsExpansion : Obligations.FuseWriteIsItsExpansion := by
  intro i f v s hf h hu hc hd hs
  rw [encode_of_fuseOperand i f v hf, ← List.append_nil (fuseWords f v)] at h
  obtain ⟨hrun, -⟩ := stepN_fuseWrite f v [] s h ⟨hu, hc, hd, hs⟩
  rw [hrun, exec_fuseWrite i f v hf]
  exact ((fuseWrite_next_iff f v s _).2 ⟨toNat_u_eq_zero s hu, hc, hd, hs, rfl⟩).symm

/-- Settles O40: the fixed program is the expansion of `SESSION`. -/
theorem sessionIsRunOfFixedProgram : Obligations.SessionIsRunOfFixedProgram := by
  intro s hprog hm hu hc
  obtain ⟨n, h178, h517, hrun⟩ := stepN_session s (holdsAt_sessionWords s hprog hm) hu hc
  exact ⟨n, h178, h517, hrun.trans ((execSession_next_iff s _).2 ⟨toNat_u_eq_zero s hu, hc, rfl⟩).symm⟩

end Sys2Proof.Machine
end

section
/-! The tables of the spec evaluated: the named operand pairs, the descriptors, and the words of the fuse writes and of
the fixed program (R94, R96 to R98, R127 to R134, R153 to R155). -/

namespace Sys2Proof.Machine

/-! ## Named transfers (R96) -/

/-- A transfer instruction acts as `XFER` of its operand pair. -/
theorem exec_eq_exec_xfer (i : Instr) (d e : Byte) (h : operandPair i = some (d, e)) (s : State) :
    exec i s = exec (.xfer d e) s :=
  (exec_transfer i d e h s).trans (exec_transfer (.xfer d e) d e rfl s).symm

/-- The data byte is the high half of `PAIR16` (R92). -/
theorem toNat_pair16 (d i : Byte) : (pair16 d i).toNat = 256 * d.toNat + i.toNat := by
  rw [pair16, BitVec.toNat_append, ← Nat.shiftLeft_add_eq_or_of_lt i.isLt, Nat.shiftLeft_eq, Nat.mul_comm]

/-! ## The statements -/

/-- Settles O1: single words by evaluation, the three expansions as what a fuse write is read back from. -/
theorem knownWordsDecode : Obligations.KnownWordsDecode :=
  ⟨rfl, rfl, rfl, rfl, rfl, rfl, rfl, rfl, rfl, rfl, rfl, rfl, rfl, rfl, rfl, rfl, rfl, rfl, rfl, rfl, rfl, rfl, rfl, rfl,
    rfl, decodeWords_fuseWords (.wfuseL 0x62#8) .low _ rfl, decodeWords_fuseWords (.wfuseH 0xDF#8) .high _ rfl,
    decodeWords_fuseWords (.wfuseE 0xFF#8) .ext _ rfl⟩

/-- Settles O7, by evaluation; the bytes in `PROG` for each of the three fuse types. -/
theorem fuseDescriptors : Obligations.FuseDescriptors := by
  refine ⟨rfl, rfl, rfl, rfl, rfl, rfl, rfl, rfl, rfl, rfl, rfl, rfl, fun f m hmem => ?_⟩
  simp only [List.mem_cons, Prod.mk.injEq, List.not_mem_nil, or_false] at hmem
  obtain ⟨rfl, rfl⟩ | ⟨rfl, rfl⟩ | ⟨rfl, rfl⟩ := hmem <;> decide

/-- Settles O8: each name is one transfer of its pair; the words, patterns and frames are evaluated, those of
`LDDATA v` for every `v`. -/
theorem namedPairs : Obligations.NamedPairs :=
  ⟨exec_eq_exec_xfer .ldcmd _ _ rfl, fun v => exec_eq_exec_xfer (.lddata v) _ _ rfl,
    exec_eq_exec_xfer .sell _ _ rfl, exec_eq_exec_xfer .selh _ _ rfl, exec_eq_exec_xfer .sele _ _ rfl,
    exec_eq_exec_xfer .wrl _ _ rfl, exec_eq_exec_xfer .wrh _ _ rfl, exec_eq_exec_xfer .wre _ _ rfl,
    rfl, fun _ => rfl, rfl, rfl, rfl, rfl, rfl, rfl,
    rfl, fun v => toNat_pair16 v 0x2C#8, rfl, rfl, rfl, rfl, rfl, rfl,
    rfl, rfl, fun v => (toNat_w11 v).trans (Nat.mul_comm _ _), rfl, rfl, rfl, rfl, rfl, rfl, rfl, rfl, by decide⟩

/-- Settles O9: the words of a fuse write do not depend on its byte but for the second. -/
theorem fuseWriteEncodings : Obligations.FuseWriteEncodings :=
  ⟨fun _ => ⟨rfl, rfl, rfl, rfl, rfl, rfl⟩, rfl, rfl, rfl⟩

/-- Settles O10, by evaluation of the fixed program. -/
theorem fixedProgramIsTheSession : Obligations.FixedProgramIsTheSession := ⟨rfl, rfl, rfl, rfl⟩

end Sys2Proof.Machine
end

section
/-! Whole runs of a transfer, by the meaning of its instruction and by the machine's own steps (R121, R135), and what no
micro-step of a transfer writes (R122, R123(e)). -/

namespace Sys2Proof.Machine

/-! ## The serial lines outside their own phases (R122) -/

/-- Each serial line is written only in its own phase of a slot, and the clock in slot 10 as well. -/
theorem transferMicro_serial_frame (d e : Byte) (s : State) (hu : s.u.toNat < 42) :
    (¬ (s.u.toNat < 40 ∧ s.u.toNat % 4 = 0) → (transferMicro d e s).out.din = s.out.din) ∧
    (¬ (s.u.toNat < 40 ∧ s.u.toNat % 4 = 1) → (transferMicro d e s).out.iin = s.out.iin) ∧
    (s.u.toNat < 40 → s.u.toNat % 4 < 2 → (transferMicro d e s).out.sclk = s.out.sclk) := by
  obtain ⟨h, he⟩ | ⟨j, -, h9, h, he⟩ | ⟨j, h9, h, he⟩ | ⟨j, -, h, he⟩ | ⟨j, -, h, he⟩ | ⟨h, he⟩ | ⟨h, he⟩ :=
    transferMicro_cases d e s hu
  all_goals
    simp only [he, nextMicro_out, nextWord_out, drive_out, loadOperands_out, Latch.write, implies_true, true_and,
      and_true]
    intros
    omega

/-! ## The micro-steps of one transfer, in order -/

/-- Every micro-step but the last goes to the next one of the same word. -/
theorem transferMicro_sameWord (d e : Byte) (s : State) (hu : s.u.toNat < 41) :
    (transferMicro d e s).u.toNat = s.u.toNat + 1 ∧ fetch (transferMicro d e s) = fetch s := by
  obtain ⟨D, I, l, v, -, -, he⟩ := transferMicro_eq_advance d e s (by omega)
  rw [he, ← nextMicro_eq_advance 41 (drive l v (loadOperands D I s)) (show s.u.toNat ≠ 41 by omega)]
  exact ⟨toNat_u_succ s.u (by omega), rfl⟩

/-- From `u = 0`, `k` micro-steps lead to micro-step `k` of the same word. -/
theorem transferMicro_iterate_sameWord (d e : Byte) (s : State) (hu : s.u = 0#6) (k : Nat) (hk : k < 42) :
    ((transferMicro d e)^[k] s).u.toNat = k ∧ fetch ((transferMicro d e)^[k] s) = fetch s := by
  induction k with
  | zero => exact ⟨toNat_u_eq_zero s hu, rfl⟩
  | succ k ih =>
    obtain ⟨hu', hf'⟩ := ih (by omega)
    obtain ⟨hu'', hf''⟩ := transferMicro_sameWord d e ((transferMicro d e)^[k] s) (by omega)
    rw [Function.iterate_succ_apply']
    exact ⟨hu''.trans (congrArg (· + 1) hu'), hf''.trans hf'⟩

/-- Under the precondition of R123 none of the 42 micro-steps is refused: the conditions are tested at `u = 0` alone. -/
theorem transfer_iterate (d e : Byte) (s : State) (hu : s.u = 0#6) (hc : s.out.sclk = false)
    (hs : s.dir.serialOut = true) (k : Nat) (hk : k < 42) :
    transfer d e ((transferMicro d e)^[k] s) = .next ((transferMicro d e)^[k + 1] s) := by
  obtain ⟨hu', -⟩ := transferMicro_iterate_sameWord d e s hu k hk
  rw [Function.iterate_succ_apply']
  refine transfer_next d e _ (by omega) fun h0 => ?_
  obtain rfl : k = 0 := hu'.symm.trans h0
  exact ⟨hc, hs⟩

/-! ## Runs as iterates -/

theorem execN_iterate (i : Instr) (g : State → State) (n : Nat) (s : State)
    (h : ∀ k < n, exec i (g^[k] s) = .next (g^[k + 1] s)) : execN n i s = .next (g^[n] s) := by
  induction n generalizing s with
  | zero => rfl
  | succ n ih =>
    have hfirst : exec i s = .next (g s) := h 0 (Nat.zero_lt_succ n)
    simp only [execN, hfirst]
    exact ih (g s) fun k hk => h (k + 1) (Nat.succ_lt_succ hk)

theorem stepN_iterate (g : State → State) (n : Nat) (s : State)
    (h : ∀ k < n, step (g^[k] s) = .next (g^[k + 1] s)) : stepN n s = .next (g^[n] s) := by
  induction n generalizing s with
  | zero => rfl
  | succ n ih =>
    have hfirst : step s = .next (g s) := h 0 (Nat.zero_lt_succ n)
    simp only [stepN, hfirst]
    exact ih (g s) fun k hk => h (k + 1) (Nat.succ_lt_succ hk)

/-- The step at a transfer word is a micro-step of that transfer, under whatever name it decodes (R96, R103). -/
theorem step_xferWord (d e : Byte) (s : State) (hf : fetch s = some (xferWord d e)) : step s = transfer d e s :=
  (step_eq_exec s _ _ hf (decodeWord_xferWord d e)).trans (exec_transfer _ d e (operandPair_named d e) s)

/-! ## The statements -/

/-- Settles O15: the frame of one micro-step. -/
theorem transferFrame : Obligations.TransferFrame := by
  intro i d e s t hp h
  rw [exec_transfer i d e hp, transfer_next_iff] at h
  obtain ⟨hu, -, rfl⟩ := h
  obtain ⟨hdir, hdout, hhvrst, hprog, hsamples⟩ := transferMicro_frame d e s hu
  obtain ⟨hdin, hiin, hsclk⟩ := transferMicro_serial_frame d e s hu
  have hregs (h0 : s.u.toNat ≠ 0) : (transferMicro d e s).dreg = s.dreg ∧ (transferMicro d e s).ireg = s.ireg :=
    Prod.mk.inj ((transferMicro_operands d e s hu).trans (if_neg h0))
  exact ⟨hdir, hdout, hhvrst, hsamples, hregs, hdin, hiin, hsclk, fun a => by rw [hprog]⟩

/-- Settles O16: the 42 executions are the micro-steps of one whole transfer. -/
theorem wholeTransfer : Obligations.WholeTransfer := by
  intro i d e s hp hu hc hs
  have hrun : execN 42 i s = .next (transferRun d e s) :=
    execN_iterate i (transferMicro d e) 42 s fun k hk =>
      (exec_transfer i d e hp _).trans (transfer_iterate d e s hu hc hs k hk)
  rw [hrun, transferRun_eq d e s hu]

/-- Settles O17: the word at `mpc` stays the transfer's until its last micro-step, so each of the 42 steps is one of its
micro-steps. -/
theorem transferIsNotInterrupted : Obligations.TransferIsNotInterrupted := by
  intro s d e hf hu hc hs
  have hrun : stepN 42 s = .next (transferRun d e s) :=
    stepN_iterate (transferMicro d e) 42 s fun k hk =>
      (step_xferWord d e _ ((transferMicro_iterate_sameWord d e s hu k hk).2.trans hf)).trans
        (transfer_iterate d e s hu hc hs k hk)
  rw [hrun, transferRun_eq d e s hu]

end Sys2Proof.Machine
end

section
/-! The clock-sampled view of a transfer, and how many events of a kind it has, counted slot by slot (R120, R123(a),
R123(b), R124). -/

namespace Sys2Proof.Machine

/-! ## The clock-sampled view (R124) -/

/-- Slot `8 - k` sends payload bit `k` (R91). -/
theorem frameBit_payload (b : Byte) (k : Nat) (hk : k < 8) : frameBit b (8 - k) = b.getLsbD k := by
  rw [frameBit, show 10 - (8 - k) = k + 2 by omega, getLsbD_w11_add_two]

/-! ## Counting over a list of slots -/

theorem countEvents_append (test : Wires → Event → Bool) (w : Wires) (es es' : List Event) :
    countEvents test w (es ++ es') = countEvents test w es + countEvents test (replay w es) es' := by
  induction es generalizing w with
  | nil => exact (Nat.zero_add _).symm
  | cons ev es ih => simp only [List.cons_append, countEvents, ih, replay, List.foldl_cons, Nat.add_assoc]

/-- A test that does not look at the lines counts the events that pass it. -/
theorem countEvents_const (p : Event → Bool) (w : Wires) (es : List Event) :
    countEvents (fun _ => p) w es = (es.filter p).length := by
  induction es generalizing w with
  | nil => rfl
  | cons ev es ih =>
    rw [countEvents, ih, List.filter_cons]
    split <;> simp [Nat.add_comm]

/-- From a low clock, any number of slots leaves it low. -/
theorem sclk_replay_slotsLog (d e : Byte) (k : Nat) (w : Wires) (h : w.out.sclk = false) :
    (replay w (slotsLog d e k).reverse).out.sclk = false := by
  cases k with
  | zero => exact h
  | succ k => exact (replay_slotsLog_succ d e k w).2.2

theorem countEvents_slotsLog_succ (test : Wires → Event → Bool) (d e : Byte) (k : Nat) (w : Wires) :
    countEvents test w (slotsLog d e (k + 1)).reverse = countEvents test w (slotsLog d e k).reverse +
      countEvents test (replay w (slotsLog d e k).reverse) (slotLog d e k).reverse := by
  rw [slotsLog, List.reverse_append, countEvents_append]

/-- Where every slot has `c` events of a kind and a bare pulse has `p`, a transfer has `10 * c + p`. -/
theorem countEvents_transferEvents (test : Wires → Event → Bool) (d e : Byte) (c p : Nat)
    (hslot : ∀ j w, w.out.sclk = false → countEvents test w (slotLog d e j).reverse = c)
    (hpulse : ∀ w, w.out.sclk = false → countEvents test w pulseEvents = p)
    (w : Wires) (h : w.out.sclk = false) : countEvents test w (transferEvents d e) = 10 * c + p := by
  have hslots (k : Nat) : countEvents test w (slotsLog d e k).reverse = k * c := by
    induction k with
    | zero => exact (Nat.zero_mul c).symm
    | succ k ih =>
      rw [countEvents_slotsLog_succ, ih, hslot k _ (sclk_replay_slotsLog d e k w h), Nat.succ_mul]
  rw [transferEvents_eq_slots, countEvents_append, hslots, hpulse _ (sclk_replay_slotsLog d e 10 w h)]

/-- The number of `Drive` events of a line in a transfer, from those in a slot and in a pulse. -/
theorem length_filter_isDriveOf_transferEvents (l : Line) (d e : Byte) (c p : Nat)
    (hslot : ∀ j, ((slotLog d e j).reverse.filter (isDriveOf l)).length = c)
    (hpulse : (pulseEvents.filter (isDriveOf l)).length = p) :
    ((transferEvents d e).filter (isDriveOf l)).length = 10 * c + p := by
  rw [← countEvents_const _ (wires State.reset)]
  exact countEvents_transferEvents _ d e c p (fun j w _ => (countEvents_const _ w _).trans (hslot j))
    (fun w _ => (countEvents_const _ w _).trans hpulse) _ rfl

/-- The one rising edge of a slot (R122). -/
theorem countEvents_isRising_slotLog (d e : Byte) (j : Nat) (w : Wires) (h : w.out.sclk = false) :
    countEvents isRising w (slotLog d e j).reverse = 1 := by
  simp [slotLog, countEvents, isRising, wiresAfter, Latch.write, h]

theorem countEvents_isFalling_slotLog (d e : Byte) (j : Nat) (w : Wires) :
    countEvents isFalling w (slotLog d e j).reverse = 1 := by
  simp [slotLog, countEvents, isFalling, wiresAfter, Latch.write]

theorem countEvents_isRising_pulse (w : Wires) (h : w.out.sclk = false) : countEvents isRising w pulseEvents = 1 := by
  simp [pulseEvents, countEvents, isRising, wiresAfter, Latch.write, h]

theorem countEvents_isFalling_pulse (w : Wires) : countEvents isFalling w pulseEvents = 1 := by
  simp [pulseEvents, countEvents, isFalling, wiresAfter, Latch.write]

/-! ## The statements -/

/-- Settles O18: the eleven slots are the start slot, the payload and the two stop slots. -/
theorem clockSampledTransfer : Obligations.ClockSampledTransfer := by
  intro d e w h
  have hpayload : [7, 6, 5, 4, 3, 2, 1, 0].map (fun k => (frameBit d (8 - k), frameBit e (8 - k))) =
      [7, 6, 5, 4, 3, 2, 1, 0].map (fun k => (d.getLsbD k, e.getLsbD k)) :=
    List.map_congr_left fun k hk => by
      have hk8 : k < 8 := (by decide : ∀ k ∈ [7, 6, 5, 4, 3, 2, 1, 0], k < 8) k hk
      rw [frameBit_payload d k hk8, frameBit_payload e k hk8]
  calc clockSampled w (transferEvents d e)
      = (List.range 11).map fun slot => (frameBit d slot, frameBit e slot) := clockSampled_transferEvents d e w h
    _ = [(frameBit d 0, frameBit e 0)]
          ++ [7, 6, 5, 4, 3, 2, 1, 0].map (fun k => (frameBit d (8 - k), frameBit e (8 - k)))
          ++ [(frameBit d 9, frameBit e 9), (frameBit d 10, frameBit e 10)] := rfl
    _ = _ := by simp only [hpayload, frameBit_zero, frameBit_nine, frameBit_ten]

/-- Settles O19: ten slots of four events each, one of them a rising and one a falling edge, and a bare pulse. -/
theorem transferEventCounts : Obligations.TransferEventCounts := by
  intro d e w h
  exact ⟨rfl,
    length_filter_isDriveOf_transferEvents .din d e 1 0 (fun _ => rfl) rfl,
    length_filter_isDriveOf_transferEvents .iin d e 1 0 (fun _ => rfl) rfl,
    length_filter_isDriveOf_transferEvents .sclk d e 2 2 (fun _ => rfl) rfl,
    countEvents_transferEvents isRising d e 1 1 (countEvents_isRising_slotLog d e) countEvents_isRising_pulse w h,
    countEvents_transferEvents isFalling d e 1 1 (fun j w _ => countEvents_isFalling_slotLog d e j w)
      (fun w _ => countEvents_isFalling_pulse w) w h⟩

end Sys2Proof.Machine
end

section
/-! How often the levels change during a transfer: the two clock edges of every slot, and the places at which the frame of
a byte changes, which are at most eight because a frame begins and ends low (R91, R123(f)). -/

namespace Sys2Proof.Machine

/-! ## The places at which a sequence of levels changes -/

/-- How many of the first `n` places `k` of a sequence have another level at `k + 1`. -/
def changes (f : Nat → Bool) (n : Nat) : Nat := ((List.range n).filter fun k => f (k + 1) != f k).length

@[simp] theorem changes_zero (f : Nat → Bool) : changes f 0 = 0 := rfl

theorem changes_succ (f : Nat → Bool) (n : Nat) : changes f (n + 1) = changes f n + (f (n + 1) != f n).toNat := by
  rw [changes, List.range_succ, List.filter_append, List.length_append, List.filter_singleton]
  cases f (n + 1) != f n <;> rfl

/-- The first place and the others. -/
theorem changes_succ_left (f : Nat → Bool) (n : Nat) :
    changes f (n + 1) = (f 1 != f 0).toNat + changes (fun k => f (k + 1)) n := by
  induction n with
  | zero => rw [changes_succ, changes_zero, changes_zero, Nat.add_comm]
  | succ n ih => rw [changes_succ, ih, changes_succ _ n, Nat.add_assoc]

theorem changes_le (f : Nat → Bool) (n : Nat) : changes f n ≤ n :=
  (List.length_filter_le _ _).trans_eq List.length_range

/-- A sequence stands at its first level again after an even number of changes. -/
theorem changes_mod_two (f : Nat → Bool) (n : Nat) : changes f n % 2 = (f n != f 0).toNat := by
  induction n with
  | zero => rw [bne_self_eq_false]; rfl
  | succ n ih =>
    rw [changes_succ, Nat.add_mod, ih]
    cases f (n + 1) <;> cases f n <;> cases f 0 <;> rfl

/-- A sequence changes as often backwards. -/
theorem changes_reverse (f : Nat → Bool) (n : Nat) : changes (fun k => f (n - k)) n = changes f n := by
  induction n with
  | zero => rfl
  | succ n ih =>
    simp only [changes_succ_left (fun k => f (n + 1 - k)), Nat.add_sub_add_right, ih, changes_succ f n, Nat.sub_zero,
      Nat.add_sub_cancel, bne_comm (a := f n), Nat.add_comm]

/-! ## The frame of a byte -/

/-- `t(b)`, counted slot by slot (R91): the last place is no change, for slots 9 and 10 are both low. -/
theorem transitions_eq (b : Byte) : transitions b = changes (frameBit b) 9 :=
  calc transitions b
      = changes (w11 b).getLsbD 10 := rfl
    _ = changes (frameBit b) 10 := (changes_reverse _ 10).symm
    _ = changes (frameBit b) 9 := by rw [changes_succ, frameBit_nine, frameBit_ten]; rfl

/-- A frame begins and ends low, so it changes an even number of times, and it has nine places. -/
theorem transitions_le (b : Byte) : transitions b ≤ 8 := by
  have heven := changes_mod_two (frameBit b) 9
  have hle := changes_le (frameBit b) 9
  rw [frameBit_nine, frameBit_zero, bne_self_eq_false, Bool.toNat_false] at heven
  rw [transitions_eq]
  omega

/-! ## The level changes of a transfer -/

/-- A `Drive` changes the latch when the line held the other level. -/
theorem isLevelChange_drive (w : Wires) (l : Line) (v : Bool) : isLevelChange w (.drive l v) = (v != w.out.read l) := by
  obtain ⟨⟨din, iin, dout, sclk, hvrst⟩, dir⟩ := w
  rw [Bool.eq_iff_iff]
  cases l <;> simp [isLevelChange, wiresAfter, Latch.write, Latch.read]

/-- A slot changes the clock twice, and each data line when its bit is another than the line's level. -/
theorem countEvents_isLevelChange_slotLog (d e : Byte) (j : Nat) (w : Wires) (h : w.out.sclk = false) :
    countEvents isLevelChange w (slotLog d e j).reverse =
      2 + (frameBit d j != w.out.din).toNat + (frameBit e j != w.out.iin).toNat := by
  simp only [slotLog, List.reverse_cons, List.reverse_nil, List.nil_append, List.cons_append, countEvents,
    isLevelChange_drive, wiresAfter, Latch.write, Latch.read, h]
  cases frameBit d j != w.out.din <;> cases frameBit e j != w.out.iin <;> rfl

theorem countEvents_isLevelChange_pulse (w : Wires) (h : w.out.sclk = false) :
    countEvents isLevelChange w pulseEvents = 2 := by
  simp [pulseEvents, countEvents, isLevelChange_drive, wiresAfter, Latch.write, Latch.read, h]

/-- From low lines, the first slot changes the clock alone, for a frame begins low; each later slot finds the bits of the
slot before it on the lines. -/
theorem countEvents_isLevelChange_slotsLog (d e : Byte) (k : Nat) (w : Wires) (hd : w.out.din = false)
    (hi : w.out.iin = false) (hc : w.out.sclk = false) :
    countEvents isLevelChange w (slotsLog d e (k + 1)).reverse =
      2 * (k + 1) + changes (frameBit d) k + changes (frameBit e) k := by
  induction k with
  | zero =>
    rw [slotsLog, slotsLog, List.append_nil, countEvents_isLevelChange_slotLog d e 0 w hc, hd, hi]
    rw [frameBit_zero, frameBit_zero]
    rfl
  | succ k ih =>
    obtain ⟨hdin, hiin, hsclk⟩ := replay_slotsLog_succ d e k w
    rw [countEvents_slotsLog_succ, ih, countEvents_isLevelChange_slotLog d e (k + 1) _ hsclk, hdin, hiin, changes_succ,
      changes_succ]
    omega

/-! ## The statement -/

/-- Settles O20: 22 clock edges, and the changes of the two frames. -/
theorem transferLevelChanges : Obligations.TransferLevelChanges := by
  intro d e w hd hi hc
  refine ⟨?_, transitions_le d, transitions_le e⟩
  rw [transferEvents_eq_slots, countEvents_append, countEvents_isLevelChange_slotsLog d e 9 w hd hi hc,
    countEvents_isLevelChange_pulse _ (sclk_replay_slotsLog d e 10 w hc), transitions_eq, transitions_eq]
  omega

end Sys2Proof.Machine
end

section
/-! The wait: one sample, the run of low samples before the first high one (R150, R151, R191), and what the instructions
around it leave unchanged (R151(d), R156, R171, R172). -/

namespace Sys2Proof.Machine

/-! ## One sample (R150) -/

/-- At the first micro-step, the directions as entry leaves them: what a sample of the wait needs (R34, R151(g)). -/
structure ReadyToSample (s : State) : Prop where
  u : s.u = 0#6
  dout : s.dir.dout = .input
  serialOut : s.dir.serialOut = true

theorem execPoll_of_ready {s : State} (hr : ReadyToSample s) : execPoll s = .next (pollMicro s) :=
  (execPoll_next_iff s _).2 ⟨toNat_u_eq_zero s hr.u, hr.dout, hr.serialOut, rfl⟩

/-- The step of the word `POLL` is the meaning of `POLL`, whether it answers or stops. -/
theorem step_pollWord {s : State} (hf : fetch s = some pollWord) : step s = execPoll s := step_eq_exec s _ .poll hf rfl

theorem pollMicro_eq (s : State) (hu : s.u = 0#6) : pollMicro s = { s with
    mpc := if Config.doutLevel s.samples = true then s.mpc + 1 else s.mpc
    samples := s.samples + 1
    log := .sample (Config.doutLevel s.samples) :: s.log } := by
  obtain ⟨hb, he⟩ | ⟨hb, he⟩ := pollMicro_cases s <;> rw [answer] at hb <;>
    simp [he, hb, hu, nextWord, sample, answer]

/-! ## Low samples (R151(f), R191) -/

/-- The state after `n` low samples. -/
def lowSamples (n : Nat) (s : State) : State :=
  { s with samples := s.samples + n, log := List.replicate n (.sample false) ++ s.log }

theorem ReadyToSample.lowSamples {s : State} (hr : ReadyToSample s) (n : Nat) : ReadyToSample (lowSamples n s) :=
  ⟨hr.u, hr.dout, hr.serialOut⟩

/-- After low samples the next step at the wait is one more sample. -/
theorem step_lowSamples {s : State} (hf : fetch s = some pollWord) (hr : ReadyToSample s) (n : Nat) :
    step (lowSamples n s) = .next (pollMicro (lowSamples n s)) :=
  (step_pollWord (s := lowSamples n s) hf).trans (execPoll_of_ready (hr.lowSamples n))

theorem pollMicro_lowSamples {s : State} (hu : s.u = 0#6) (n : Nat) (hb : Config.doutLevel (s.samples + n) = false) :
    pollMicro (lowSamples n s) = lowSamples (n + 1) s := by
  rw [pollMicro_eq (lowSamples n s) hu]
  simp [lowSamples, hb, List.replicate_succ, Nat.add_assoc]

/-- While the answers are low the machine stays at the wait. -/
theorem stepN_lowSamples {s : State} (hf : fetch s = some pollWord) (hr : ReadyToSample s) (n : Nat)
    (hlow : ∀ k < n, Config.doutLevel (s.samples + k) = false) : stepN n s = .next (lowSamples n s) := by
  induction n with
  | zero => rfl
  | succ n ih =>
    have hrun := ih fun k hk => hlow k (Nat.lt_succ_of_lt hk)
    rw [stepN_add n 1 s _ hrun, ← pollMicro_lowSamples hr.u n (hlow n n.lt_succ_self)]
    exact stepN_one (step_lowSamples hf hr n)

/-- Among the first `n` answers one is high, or the run over them stays at the wait. -/
theorem high_or_stepN_lowSamples {s : State} (hf : fetch s = some pollWord) (hr : ReadyToSample s) (n : Nat) :
    (∃ k < n, Config.doutLevel (s.samples + k) = true) ∨ stepN n s = .next (lowSamples n s) := by
  refine or_iff_not_imp_left.2 fun hnone => stepN_lowSamples hf hr n fun k hk => ?_
  exact Bool.eq_false_iff.2 fun hb => hnone ⟨k, hk, hb⟩

/-! ## The statements -/

/-- Settles O22: one sample, and the run of low samples with one step for the high answer after them. -/
theorem pollStep : Obligations.PollStep := by
  refine ⟨rfl, fun s hu hd hs => ?_, fun n s hf hu hd hs => ?_⟩
  · exact (execPoll_of_ready ⟨hu, hd, hs⟩).trans (congrArg _ (pollMicro_eq s hu))
  · have hr : ReadyToSample s := ⟨hu, hd, hs⟩
    refine (high_or_stepN_lowSamples hf hr n).imp_right fun hrun => ?_
    cases hb : Config.doutLevel (s.samples + n) with
    | false => exact .inl rfl
    | true =>
      refine .inr ?_
      rw [stepN_add n 1 s _ hrun, stepN_one (step_lowSamples hf hr n), pollMicro_eq (lowSamples n s) hu]
      simp [lowSamples, hb, Nat.add_assoc]

/-- Settles O23: the two cases of one sample. -/
theorem pollNeverLeavesOnLowSample : Obligations.PollNeverLeavesOnLowSample := by
  intro s t hf h
  rw [step_pollWord hf, execPoll_next_iff] at h
  obtain ⟨-, -, -, rfl⟩ := h
  obtain ⟨hb, he⟩ | ⟨hb, he⟩ := pollMicro_cases s <;> rw [he, ← hb]
  · exact .inl ⟨rfl, rfl, rfl⟩
  · exact .inr ⟨rfl, rfl, rfl⟩

/-- Settles O24. -/
theorem pollHangsWhileLow : Obligations.PollHangsWhileLow :=
  fun n _ hf hu hd hs => high_or_stepN_lowSamples hf ⟨hu, hd, hs⟩ n

/-- Settles O29, from the whole state that a fuse write leaves. -/
theorem fuseWriteFrame : Obligations.FuseWriteFrame := by
  intro i f v s t hf h
  rw [exec_fuseWrite i f v hf, fuseWrite_next_iff] at h
  obtain ⟨hu, -, -, -, rfl⟩ := h
  rw [pollMicro_fuseTransfers f v s (BitVec.eq_of_toNat_eq hu)]
  exact ⟨rfl, rfl, rfl, rfl, fun _ => rfl⟩

/-- Settles O37: a sample touches no line and no register, `EXIT` drives the high-voltage line alone, and `HALT` changes
nothing. -/
theorem pollExitHaltFrame : Obligations.PollExitHaltFrame := by
  rintro i s t (rfl | rfl | rfl) h
  · obtain ⟨-, -, -, rfl⟩ := (execPoll_next_iff s t).1 h
    obtain ⟨hdreg, hireg, hout, hdir, hprog, -⟩ := pollMicro_frame s
    rw [hout, hprog]
    exact ⟨hdreg, hireg, hdir, rfl, rfl, rfl, rfl, fun _ => rfl, fun hne => absurd rfl hne, fun _ => rfl⟩
  · obtain ⟨-, rfl⟩ := (execExit_next_iff s t).1 h
    exact ⟨rfl, rfl, rfl, rfl, rfl, rfl, rfl, fun hne => absurd rfl hne, fun _ => rfl, fun _ => rfl⟩
  · obtain rfl : s = t := Host.Outcome.next.inj h
    exact ⟨rfl, rfl, rfl, rfl, rfl, rfl, rfl, fun _ => rfl, fun _ => rfl, fun _ => rfl⟩

end Sys2Proof.Machine
end

section
/-! A whole entry and its frame (R170), the one step of `EXIT` (R171), and the final state, in which `HALT` stays for ever
(R172, R178). -/

namespace Sys2Proof.Machine

/-! ## `ENTER` (R170) -/

/-- Every micro-step of `ENTER` but the last goes to the next one, at any address. -/
theorem enterMicro_u_succ (s : State) (hu : s.u.toNat < 8) : (enterMicro s).u.toNat = s.u.toNat + 1 := by
  obtain ⟨ev, -, he⟩ := enterMicro_eq_advance s (by omega)
  rw [he, ← nextMicro_eq_advance 8 (performed ev s) (show s.u.toNat ≠ 8 by omega)]
  exact toNat_u_succ s.u (by omega)

theorem enterMicro_iterate_u (s : State) (hu : s.u = 0#6) (k : Nat) (hk : k < 9) : (enterMicro^[k] s).u.toNat = k := by
  induction k with
  | zero => exact toNat_u_eq_zero s hu
  | succ k ih =>
    have hk' := ih (by omega)
    rw [Function.iterate_succ_apply', enterMicro_u_succ _ (by omega), hk']

/-- The clock is the one line of which `ENTER` does not write the latch. -/
theorem enterMicro_sclk (s : State) (hu : s.u.toNat < 9) : (enterMicro s).out.sclk = s.out.sclk := by
  obtain ⟨-, e⟩ | ⟨-, e⟩ | ⟨-, e⟩ | ⟨-, e⟩ | ⟨-, e⟩ | ⟨-, e⟩ | ⟨-, e⟩ | ⟨-, e⟩ | ⟨-, e⟩ := enterMicro_cases s hu
  all_goals
    rw [e]
    rfl

/-! ## `EXIT` (R171) -/

theorem exitMicro_eq (s : State) (hu : s.u = 0#6) : exitMicro s = { s with
    out := { s.out with hvrst := true }
    mpc := s.mpc + 1
    log := .drive .hvrst true :: s.log } := by
  simp [exitMicro, nextWord, drive, Latch.write, hu]

/-! ## The final state (R172, R178) -/

theorem step_of_isFinal (s : State) (h : IsFinal s) : step s = .next s := step_eq_exec s haltWord .halt h rfl

/-- Under the invariant a word of one micro-step stands at its first. -/
theorem u_eq_zero_of_microCount_one (s : State) (hi : Inv s) (hc : microCount fixedProgram s.mpc.toNat = 1) :
    s.u.toNat = 0 := Nat.lt_one_iff.1 (hc ▸ hi.u)

/-- The last transfer of the fixed program is the write strobe of the extended fuse (R98). -/
theorem loadedPair_fixedProgram_halt : loadedPair fixedProgram 17 0 = some (0x00#8, 0x6E#8) := by decide

/-! ## The statements -/

/-- Settles O32: the nine executions are the micro-steps of one whole entry. -/
theorem wholeEnter : Obligations.WholeEnter := by
  intro s hu
  have hrun : execN 9 .enter s = .next (enterRun s) := execN_iterate .enter enterMicro 9 s fun k hk => by
    have hk' := enterMicro_iterate_u s hu k hk
    rw [Function.iterate_succ_apply']
    exact (execEnter_next_iff _ _).2 ⟨by omega, rfl⟩
  rw [hrun, enterRun_eq s hu, ← hu]

/-- Settles O34: the frame of one micro-step, and that none of them writes the clock's latch. -/
theorem enterFrame : Obligations.EnterFrame := by
  intro s t h
  obtain ⟨hu, rfl⟩ := (execEnter_next_iff s t).1 h
  obtain ⟨hdreg, hireg, hprog, hsamples⟩ := enterMicro_frame s hu
  exact ⟨hdreg, hireg, enterMicro_sclk s hu, hsamples, fun a => by rw [hprog]⟩

/-- Settles O57, from what the invariant says of the registers, the lines and the directions at the last word. -/
theorem finalStateOfSession : Obligations.FinalStateOfSession := by
  intro s hi h17
  have hm : s.mpc.toNat = 17 := congrArg BitVec.toNat h17
  have hu : s.u.toNat = 0 := u_eq_zero_of_microCount_one s hi (by rw [hm]; decide)
  obtain ⟨hdreg, hireg⟩ := hi.regs (0x00#8, 0x6E#8) (by rw [hm, hu, loadedPair_fixedProgram_halt])
  have hout : s.out = restLatch true := by
    rw [out_of_inv_start s hi hu, hm]
    rfl
  exact ⟨isFinal_of_inv s hi hm, BitVec.eq_of_toNat_eq hu, hdreg, hireg, (done_iff s).2 hm, hout,
    hi.dirs.trans (dirsAt_after_enter _ _ (by omega))⟩

/-- Settles O35: the one micro-step of `EXIT`; in the fixed program the word after it is `HALT`, which changes nothing. -/
theorem exitStep : Obligations.ExitStep := by
  refine ⟨rfl, rfl, fun s hu => ?_, fun s t h16 h => ?_, fun s t hprog h17 h => ?_⟩
  · exact ((execExit_next_iff s _).2 ⟨toNat_u_eq_zero s hu, rfl⟩).trans (congrArg _ (exitMicro_eq s hu))
  · obtain ⟨-, rfl⟩ := (execExit_next_iff s t).1 h
    have hm : (exitMicro s).mpc = 17#5 := congrArg (· + 1) h16
    have hm' : (exitMicro s).mpc.toNat = 17 := congrArg BitVec.toNat hm
    exact ⟨by rw [done, h16]; rfl, (done_iff _).2 hm', sess_done _ hm'.ge⟩
  · have hhalt : step s = .next s := step_of_instrAt s .halt (by rw [hprog, h17]; decide)
    exact (Host.Outcome.next.inj (hhalt.symm.trans h)).symm

/-- Settles O36, by induction on the number of steps. -/
theorem haltIsFinal : Obligations.HaltIsFinal := by
  refine ⟨fun _ => rfl, fun n s h => ?_⟩
  induction n with
  | zero => rfl
  | succ n ih => simpa only [stepN, step_of_isFinal s h] using ih

end Sys2Proof.Machine
end

section
/-! The fixed program meets no refusal and no fault (R190, R203). -/

namespace Sys2Proof.Machine

/-- Settles O48: the five kinds of words in `PROG` each answer their micro-step; at `HALT` the next state is the same
state (log entry 5). -/
theorem fixedProgramNeverStops : Obligations.FixedProgramNeverStops := by
  intro s hi
  obtain ⟨d, e, -, htransfer⟩ | hpoll | ⟨-, henter⟩ | hexit | ⟨-, hhalt⟩ := step_of_inv s hi
  · exact ⟨transferMicro d e s, htransfer⟩
  · exact ⟨pollMicro s, hpoll⟩
  · exact ⟨enterMicro s, henter⟩
  · exact ⟨exitMicro s, hexit⟩
  · exact ⟨s, hhalt⟩

end Sys2Proof.Machine
end
